-- ==== Sys2Proof/Word.lean ====
section
/-!
DEFINITION. The word types of the lamp CORE: the spec's bytes, 16-bit immediate and 32-bit registers (R5, R6 of
`spec/00_scope.md`). Everything computed on them stands in `Sys2Proof/Machine/Numerics.lean`.
-/

namespace Sys2Proof

/-- A byte of the Program Image: the width `OPBYTE` of every field of every instruction (R5). -/
abbrev Byte := BitVec 8

/-- The width `IMMW` of LOAD's immediate (R5). -/
abbrev Half := BitVec 16

/-- The width `XLEN` of a general register and of `rem`, and `PCW` of the program counter (R5). -/
abbrev Word := BitVec 32

end Sys2Proof
end

