-- ==== Sys2Proof/Machine/Numerics.lean ====
section
/-!
DEFINITION. The numeric primitives of R6 and R7 of `spec/00_scope.md`. Arithmetic is exact on the integers and narrowed
by `wrap32` at the end, so overflow wraps modulo 2^32 (R87 of `spec/40_arithmetic.md`, decision D4).
-/

namespace Sys2Proof.Machine

/-- `S(v)` of R6: a 32-bit pattern read as a two's-complement integer. -/
def sval (v : Word) : Int := v.toInt

/-- `U(v)` of R6: a 32-bit pattern read as an unsigned integer. -/
def uval (v : Word) : Nat := v.toNat

/-- `wrap32(n)` of R6: the pattern `p` with `U(p) = n mod 2^32`. -/
def wrap32 (n : Int) : Word := BitVec.ofInt 32 n

/-- `tdiv(a, b)` of R7: the quotient rounded toward zero. -/
def tdiv (a b : Int) : Int := Int.tdiv a b

/-- `trem(a, b)` of R7: `a - tdiv(a, b) * b`. -/
def trem (a b : Int) : Int := a - tdiv a b * b

/-- `hi ++ lo` of R35 of `spec/20_memory.md`: the byte at the lower address is the more significant. -/
def imm16 (hi lo : Byte) : Half := hi ++ lo

/-- `zext_32` of R7, which widens LOAD's immediate (R54 of `spec/30_encoding.md`, decision D3). -/
def zext32 (v : Half) : Word := v.setWidth 32

end Sys2Proof.Machine
end

