-- ==== Sys2Proof/Config.lean ====
section
/-!
DEFINITION. The parameters of R5 of `spec/00_scope.md` that fix the shape of the machine. The policy parameters of R5
(`LOAD_EXT`, `OVF`, `DIV0`, `DIVOVF`) have one value each in this hardware; they are the bodies of the operations in
`Sys2Proof/Machine/`, not fields here. `MAX_CYCLES` is "none": a run takes fuel (`Sys2Proof/Machine/HostOps.lean`).
The spec leaves no value open, so there is no free value here.
-/

namespace Sys2Proof.Config

/-- `NREG` of R5: the number of general registers. -/
abbrev nreg : Nat := 32

/-- One more than the largest length of a Program Image: `0 <= L <= 2^31 - 1` (R5, R31 of `spec/20_memory.md`). -/
abbrev imageBound : Nat := 2147483648

/-- The longest instruction in bytes: the opcode byte and `MAXARITY` = 3 operand bytes (R5). -/
abbrev maxInstrBytes : Nat := 4

end Sys2Proof.Config
end

