-- ==== Sys2Proof/Syntax.lean ====
section
/-!
DEFINITION. The closed set of 17 instructions of the lamp ISA: one constructor per row of `spec/opcode_table.json`
(R55 of `spec/30_encoding.md`). An operand is the raw byte of the image, 0 to 255: the decoder does not check it
(R54, R58).
-/

namespace Sys2Proof

/-- The 17 opcodes of the Instruction Table (R55), by mnemonic. -/
inductive Opcode
  | add | sub | mul | mod | inc | dec
  | eq | neq | gt | gte | lt | lte
  | hlt | nop | load | jmp
  | modr
  deriving DecidableEq, Repr

/-- The five formats of R51. -/
inductive Format
  /-- the opcode byte alone -/
  | z
  /-- one register byte -/
  | r
  /-- two register bytes -/
  | rr
  /-- two source register bytes and a destination register byte -/
  | rrr
  /-- a register byte and the two bytes of an immediate -/
  | ri
  deriving DecidableEq, Repr

/-- An instruction with its operand bytes in image order (R51, R52). -/
inductive Instr
  /-- `01 aa bb dd` (R81) -/
  | add (a b d : Byte)
  /-- `02 aa bb dd` (R82) -/
  | sub (a b d : Byte)
  /-- `03 aa bb dd` (R83) -/
  | mul (a b d : Byte)
  /-- `04 aa bb dd` (R84) -/
  | mod (a b d : Byte)
  /-- `05 rr` (R85) -/
  | inc (r : Byte)
  /-- `06 rr` (R86) -/
  | dec (r : Byte)
  /-- `07 aa bb` (R91) -/
  | eq (a b : Byte)
  /-- `08 aa bb` (R92) -/
  | neq (a b : Byte)
  /-- `09 aa bb` (R93) -/
  | gt (a b : Byte)
  /-- `0A aa bb` (R94) -/
  | gte (a b : Byte)
  /-- `0B aa bb` (R95) -/
  | lt (a b : Byte)
  /-- `0C aa bb` (R96) -/
  | lte (a b : Byte)
  /-- `0D` (R100) -/
  | hlt
  /-- `0E` (R101) -/
  | nop
  /-- `0F rr hh ll` (R102) -/
  | load (r hi lo : Byte)
  /-- `10 rr` (R103) -/
  | jmp (r : Byte)
  /-- `11 rr` (R110) -/
  | modr (r : Byte)
  deriving DecidableEq, Repr

/-- The row of the Instruction Table an instruction belongs to. -/
def Instr.opcode : Instr → Opcode
  | .add _ _ _ => .add
  | .sub _ _ _ => .sub
  | .mul _ _ _ => .mul
  | .mod _ _ _ => .mod
  | .inc _ => .inc
  | .dec _ => .dec
  | .eq _ _ => .eq
  | .neq _ _ => .neq
  | .gt _ _ => .gt
  | .gte _ _ => .gte
  | .lt _ _ => .lt
  | .lte _ _ => .lte
  | .hlt => .hlt
  | .nop => .nop
  | .load _ _ _ => .load
  | .jmp _ => .jmp
  | .modr _ => .modr

/-- The operand bytes `I[1]`, `I[2]`, `I[3]` of an instruction, in image order (R52). -/
def Instr.operands : Instr → List Byte
  | .add a b d => [a, b, d]
  | .sub a b d => [a, b, d]
  | .mul a b d => [a, b, d]
  | .mod a b d => [a, b, d]
  | .inc r => [r]
  | .dec r => [r]
  | .eq a b => [a, b]
  | .neq a b => [a, b]
  | .gt a b => [a, b]
  | .gte a b => [a, b]
  | .lt a b => [a, b]
  | .lte a b => [a, b]
  | .hlt => []
  | .nop => []
  | .load r hi lo => [r, hi, lo]
  | .jmp r => [r]
  | .modr r => [r]

/-- The operand bytes that are register indices (the bytes marked "reg" in R51): LOAD's `hi` and `lo` are not. -/
def Instr.regBytes : Instr → List Byte
  | .add a b d => [a, b, d]
  | .sub a b d => [a, b, d]
  | .mul a b d => [a, b, d]
  | .mod a b d => [a, b, d]
  | .inc r => [r]
  | .dec r => [r]
  | .eq a b => [a, b]
  | .neq a b => [a, b]
  | .gt a b => [a, b]
  | .gte a b => [a, b]
  | .lt a b => [a, b]
  | .lte a b => [a, b]
  | .hlt => []
  | .nop => []
  | .load r _ _ => [r]
  | .jmp r => [r]
  | .modr r => [r]

end Sys2Proof
end

