-- ==== Sys2Proof/Machine/State.lean ====
section
/-!
DEFINITION. The state of the block: the six items of R10 of `spec/10_state.md`, and the Program Image with its length,
which the spec keeps as parameters of the block and the model holds beside them (log entry 1). Plain data.
-/

namespace Sys2Proof.Machine

/-- Why a step stops the MODEL. There is no such reason: a fault of this hardware is a state (R126 of
`spec/60_exceptions.md`: `faulted` and `fault_cause` are written and the cycle ends), so raising one answers a next
state, and a faulted block answers itself (R129). The type is empty, which is safe (log entry 5). -/
inductive Fault
  deriving DecidableEq, Repr

/-- Why an operation has no meaning. -/
inductive Refusal
  /-- Raised by an arm of `exec` whose instruction has no meaning yet. No arm raises it: all 17 have one. Safe. -/
  | notModelled (mnemonic : String)
  /-- Raised by the host operation `SetPC` on a faulted block, which changes nothing (R159 of
  `spec/70_reset_and_hazards.md`). Safe. -/
  | setPCWhileFaulted
  /-- Raised by the host operation `ReadReg(i)` with `i >= 32`, which changes nothing (R158). Safe. -/
  | readRegIndex
  /-- Raised by the host's load of an image longer than `2^31 - 1` bytes, outside the domain of `L` (R31 of
  `spec/20_memory.md`, U20). Safe. -/
  | imageTooLong
  deriving DecidableEq, Repr

/-- The four faults of R120 of `spec/60_exceptions.md`. -/
inductive FaultCause
  | invalidOpcode
  | imageOutOfBounds
  | registerIndex
  | divideByZero
  deriving DecidableEq, Repr

/-- The status of the block (R20 of `spec/10_state.md`): a function of the state, not a register. -/
inductive Status
  | running
  | halted
  | faulted
  deriving DecidableEq, Repr

/-- The bytes of the Program Image as (address, byte) pairs: the addresses strictly rising, and no byte listed that an
unlisted address below `L` would read as. -/
abbrev Memory := List Host.Cell

/-- What an address below `L` that the list does not name reads as. It stands for an image byte of that value, so that
every image has exactly one list (log entry 2); it is never read at an address `>= L`. -/
def unlistedByte : Byte := 0

/-- Strictly rising addresses from `lo` on, and no byte equal to `unlistedByte`. -/
def Memory.wfFrom : Nat → Memory → Bool
  | _, [] => true
  | lo, (a, b) :: m => decide (lo ≤ a) && decide (b ≠ unlistedByte) && Memory.wfFrom (a + 1) m

/-- The canonical form of a memory. -/
def Memory.wf (m : Memory) : Bool := Memory.wfFrom 0 m

/-- The complete state (R10 of `spec/10_state.md`, R31 of `spec/20_memory.md`). -/
structure State where
  /-- byte offset into the Program Image of the next byte to fetch (R14) -/
  pc : Word
  /-- the general registers `x[0]` to `x[31]` (R11) -/
  regs : Vector Word Config.nreg
  /-- the modulo-remainder register (R18) -/
  rem : Word
  /-- the equality flag (R17) -/
  flag : Bool
  /-- whether a fault has been raised since the last reset (R20) -/
  faulted : Bool
  /-- the code of the fault raised, 0 when none (R20) -/
  faultCause : BitVec 3
  /-- the bytes of the Program Image, constant from reset on (R31; log entry 1) -/
  imem : Memory
  /-- the length `L` of the Program Image, `0 <= L <= 2^31 - 1` (R31) -/
  len : Fin Config.imageBound
  deriving DecidableEq, Repr

/-- The machine right after reset (R22 of `spec/10_state.md`, R150 of `spec/70_reset_and_hazards.md`). The image is the
empty one: a program is loaded from outside the machine (R152; log entry 3). -/
def State.reset : State where
  pc := 0
  regs := Vector.replicate Config.nreg 0
  rem := 0
  flag := false
  faulted := false
  faultCause := 0
  imem := []
  len := 0

end Sys2Proof.Machine
end

