-- ==== Sys2Proof/Machine/Ops.lean ====
section
/-!
DEFINITION. The named operations over registers and memory, and fault entry. Every read and write of a piece of state
goes through one of them.
-/

namespace Sys2Proof.Machine

/-! ## The Program Image -/

/-- The byte a memory holds for an address. -/
def Memory.read (m : Memory) (k : Nat) : Byte :=
  match m with
  | [] => unlistedByte
  | (a, b) :: m => if a = k then b else Memory.read m k

/-- A memory with one byte put in place, in canonical form. Only the host's load of an image uses it: no instruction
writes memory (R32 of `spec/20_memory.md`). -/
def Memory.write (m : Memory) (k : Nat) (v : Byte) : Memory :=
  match m with
  | [] => if v = unlistedByte then [] else [(k, v)]
  | (a, b) :: m =>
    if k < a then
      if v = unlistedByte then (a, b) :: m else (k, v) :: (a, b) :: m
    else if k = a then
      if v = unlistedByte then m else (a, v) :: m
    else (a, b) :: Memory.write m k v

/-- A memory with consecutive bytes put in place from an address on. -/
def Memory.place (m : Memory) (k : Nat) (bytes : List Byte) : Memory :=
  match bytes with
  | [] => m
  | b :: bs => Memory.place (Memory.write m k b) (k + 1) bs

/-- The instruction-memory read port `MemRead(addr, 1)` of R33 of `spec/20_memory.md`: the byte `IMem[addr]`, or "out of
range" (`none`) when `addr >= L`. -/
def State.memRead (s : State) (addr : Word) : Option Byte :=
  if addr.toNat < s.len.val then some (Memory.read s.imem addr.toNat) else none

/-! ## Registers -/

/-- The register a register-index byte names: `none` when it is 32 or more, never masked, clamped or reduced (R13 of
`spec/10_state.md`, R54 of `spec/30_encoding.md`). -/
def regIndex (b : Byte) : Option (Fin Config.nreg) :=
  if h : b.toNat < Config.nreg then some ⟨b.toNat, h⟩ else none

/-- `x[i]` of R7. -/
def State.readReg (s : State) (i : Fin Config.nreg) : Word := s.regs[i]

/-- `x[i] <- v` of R7: all 32 bits are written; no register is hardwired (R11 of `spec/10_state.md`). -/
def State.writeReg (s : State) (i : Fin Config.nreg) (v : Word) : State :=
  { s with regs := s.regs.set i v }

/-- `pc <- v` of R7. -/
def State.writePc (s : State) (v : Word) : State := { s with pc := v }

/-- `rem <- v` of R7. -/
def State.writeRem (s : State) (v : Word) : State := { s with rem := v }

/-- `flag <- b` of R7. -/
def State.writeFlag (s : State) (b : Bool) : State := { s with flag := b }

/-! ## Faults and status -/

/-- The codes of R120 of `spec/60_exceptions.md`. -/
def FaultCause.code : FaultCause → BitVec 3
  | .invalidOpcode => 1
  | .imageOutOfBounds => 2
  | .registerIndex => 3
  | .divideByZero => 4

/-- Fault entry, `raise` of R126 of `spec/60_exceptions.md`: `faulted` and `fault_cause` are written and nothing else.
There is no return from it (R128); only the host's `Reset` clears it. -/
def State.raise (s : State) (c : FaultCause) : State :=
  { s with faulted := true, faultCause := c.code }

/-- The status of R20 of `spec/10_state.md`. -/
def State.status (s : State) : Status :=
  if s.faulted then .faulted
  else if s.len.val ≤ s.pc.toNat then .halted
  else .running

/-! ## Fetching -/

/-- What a part of a cycle answers: it goes on with a value, or it has raised a fault. -/
inductive Fetched (α : Type)
  | got (value : α) (s : State)
  | raised (s : State)
  deriving DecidableEq, Repr

/-- `Fetch()` of R34 of `spec/20_memory.md`: the read comes first; when it raises, `pc` is not advanced. -/
def State.fetch (s : State) : Fetched Byte :=
  match s.memRead s.pc with
  | none => .raised (s.raise .imageOutOfBounds)
  | some b => .got b (s.writePc (s.pc + 1))

/-- The operand bytes of an instruction, one `Fetch()` each, in address order (R34). -/
def State.fetchBytes (s : State) (n : Nat) : Fetched (List Byte) :=
  match n with
  | 0 => .got [] s
  | n + 1 =>
    match s.fetch with
    | .raised t => .raised t
    | .got b t =>
      match t.fetchBytes n with
      | .raised u => .raised u
      | .got bs u => .got (b :: bs) u

end Sys2Proof.Machine
end

