-- ==== Sys2Proof/Machine/Operands.lean ====
section
/-!
DEFINITION. The operand forms of R51 of `spec/30_encoding.md`, as the checks of register indices that come before every
read and every write (R125 step 4 of `spec/60_exceptions.md`): any register-index byte of 32 or more raises
`RegisterIndex`, whether the register would be read or written (R123).
-/

namespace Sys2Proof.Machine

/-- Format R: one register-index byte. -/
def withReg (s : State) (r : Byte) (k : Fin Config.nreg → State) : State :=
  match regIndex r with
  | some r => k r
  | none => s.raise .registerIndex

/-- Format RR: two source register-index bytes. -/
def withRegs2 (s : State) (a b : Byte) (k : Fin Config.nreg → Fin Config.nreg → State) : State :=
  match regIndex a, regIndex b with
  | some a, some b => k a b
  | _, _ => s.raise .registerIndex

/-- Format RRR: two source register-index bytes and the destination's. -/
def withRegs3 (s : State) (a b d : Byte)
    (k : Fin Config.nreg → Fin Config.nreg → Fin Config.nreg → State) : State :=
  match regIndex a, regIndex b, regIndex d with
  | some a, some b, some d => k a b d
  | _, _, _ => s.raise .registerIndex

/-- `x[d] <- f(S(x[a]), S(x[b]))` of format RRR: both sources are read before the destination is written, so the three
may name the same register (R80 of `spec/40_arithmetic.md`). -/
def State.combine (s : State) (f : Int → Int → Word) (a b d : Fin Config.nreg) : State :=
  s.writeReg d (f (sval (s.readReg a)) (sval (s.readReg b)))

/-- `x[r] <- f(S(x[r]))` of format R: one register read and written (R80). -/
def State.modify (s : State) (f : Int → Word) (r : Fin Config.nreg) : State :=
  s.writeReg r (f (sval (s.readReg r)))

/-- `flag <- f(S(x[a]), S(x[b]))` of format RR: every comparison overwrites the flag (R90 of `spec/41_comparison.md`). -/
def State.compare (s : State) (f : Int → Int → Bool) (a b : Fin Config.nreg) : State :=
  s.writeFlag (f (sval (s.readReg a)) (sval (s.readReg b)))

end Sys2Proof.Machine
end

