-- ==== Sys2Proof/Machine/Arithmetic.lean ====
section
/-!
DEFINITION. ADD, SUB, MUL, MOD, INC, DEC (`spec/40_arithmetic.md`). Each meaning starts where the operand bytes have been
fetched, with `pc` just past the instruction (R80, R125 of `spec/60_exceptions.md`; log entry 6).
-/

namespace Sys2Proof.Machine

/-- ADD a, b, d (R81): `x[d] <- wrap32(S(x[a]) + S(x[b]))`. -/
def execAdd (a b d : Byte) (s : State) : Host.Outcome State Fault Refusal :=
  .next (withRegs3 s a b d fun a b d => s.combine (fun m n => wrap32 (m + n)) a b d)

/-- SUB a, b, d (R82): `x[d] <- wrap32(S(x[a]) - S(x[b]))`. -/
def execSub (a b d : Byte) (s : State) : Host.Outcome State Fault Refusal :=
  .next (withRegs3 s a b d fun a b d => s.combine (fun m n => wrap32 (m - n)) a b d)

/-- MUL a, b, d (R83): `x[d] <- wrap32(S(x[a]) * S(x[b]))`, the low 32 bits of the product. -/
def execMul (a b d : Byte) (s : State) : Host.Outcome State Fault Refusal :=
  .next (withRegs3 s a b d fun a b d => s.combine (fun m n => wrap32 (m * n)) a b d)

/-- The effect of MOD on checked indices (R84): the quotient rounded toward zero to `x[d]`, its remainder to `rem`; a zero
divisor raises `DivideByZero` and writes neither (R124 of `spec/60_exceptions.md`). -/
def State.divide (s : State) (a b d : Fin Config.nreg) : State :=
  let n := sval (s.readReg a)
  let m := sval (s.readReg b)
  if m = 0 then s.raise .divideByZero
  else (s.writeReg d (wrap32 (tdiv n m))).writeRem (wrap32 (trem n m))

/-- MOD a, b, d (R84): signed division. -/
def execMod (a b d : Byte) (s : State) : Host.Outcome State Fault Refusal :=
  .next (withRegs3 s a b d fun a b d => s.divide a b d)

/-- INC r (R85): `x[r] <- wrap32(S(x[r]) + 1)`. -/
def execInc (r : Byte) (s : State) : Host.Outcome State Fault Refusal :=
  .next (withReg s r fun r => s.modify (fun n => wrap32 (n + 1)) r)

/-- DEC r (R86): `x[r] <- wrap32(S(x[r]) - 1)`. -/
def execDec (r : Byte) (s : State) : Host.Outcome State Fault Refusal :=
  .next (withReg s r fun r => s.modify (fun n => wrap32 (n - 1)) r)

end Sys2Proof.Machine
end

