-- ==== Sys2Proof/Machine/Flags.lean ====
section
/-!
DEFINITION. The flag computations: the six relations of R91 to R96 of `spec/41_comparison.md` between two signed
integers, the first operand on the left (R90, decision D8). No other instruction writes the flag (R17 of
`spec/10_state.md`).
-/

namespace Sys2Proof.Machine

/-- EQ (R91). -/
def flagEq (a b : Int) : Bool := decide (a = b)

/-- NEQ (R92). -/
def flagNeq (a b : Int) : Bool := decide (a ≠ b)

/-- GT (R93). -/
def flagGt (a b : Int) : Bool := decide (a > b)

/-- GTE (R94). -/
def flagGte (a b : Int) : Bool := decide (a ≥ b)

/-- LT (R95). -/
def flagLt (a b : Int) : Bool := decide (a < b)

/-- LTE (R96). -/
def flagLte (a b : Int) : Bool := decide (a ≤ b)

end Sys2Proof.Machine
end

