-- ==== Sys2Proof/Machine/Comparison.lean ====
section
/-!
DEFINITION. EQ, NEQ, GT, GTE, LT, LTE (`spec/41_comparison.md`): signed comparisons that write `flag` and nothing else
(R90). Each meaning starts with `pc` just past the instruction (log entry 6).
-/

namespace Sys2Proof.Machine

/-- EQ a, b (R91). -/
def execEq (a b : Byte) (s : State) : Host.Outcome State Fault Refusal :=
  .next (withRegs2 s a b fun a b => s.compare flagEq a b)

/-- NEQ a, b (R92). -/
def execNeq (a b : Byte) (s : State) : Host.Outcome State Fault Refusal :=
  .next (withRegs2 s a b fun a b => s.compare flagNeq a b)

/-- GT a, b (R93). -/
def execGt (a b : Byte) (s : State) : Host.Outcome State Fault Refusal :=
  .next (withRegs2 s a b fun a b => s.compare flagGt a b)

/-- GTE a, b (R94). -/
def execGte (a b : Byte) (s : State) : Host.Outcome State Fault Refusal :=
  .next (withRegs2 s a b fun a b => s.compare flagGte a b)

/-- LT a, b (R95). -/
def execLt (a b : Byte) (s : State) : Host.Outcome State Fault Refusal :=
  .next (withRegs2 s a b fun a b => s.compare flagLt a b)

/-- LTE a, b (R96). -/
def execLte (a b : Byte) (s : State) : Host.Outcome State Fault Refusal :=
  .next (withRegs2 s a b fun a b => s.compare flagLte a b)

end Sys2Proof.Machine
end

