-- ==== Sys2Proof/Machine/Control.lean ====
section
/-!
DEFINITION. HLT, NOP, LOAD, JMP (`spec/42_control.md`). Each meaning starts with `pc` just past the instruction (log
entry 6).
-/

namespace Sys2Proof.Machine

/-- HLT (R100): no state is written. It does not halt the block. -/
def execHlt (s : State) : Host.Outcome State Fault Refusal := .next s

/-- NOP (R101): no state is written. -/
def execNop (s : State) : Host.Outcome State Fault Refusal := .next s

/-- LOAD r, hi, lo (R102): `x[r] <- zext_32(hi ++ lo)`; `hi` and `lo` are never checked. -/
def execLoad (r hi lo : Byte) (s : State) : Host.Outcome State Fault Refusal :=
  .next (withReg s r fun r => s.writeReg r (zext32 (imm16 hi lo)))

/-- JMP r (R103): `pc <- U(x[r])`, an absolute byte offset; any target is taken. -/
def execJmp (r : Byte) (s : State) : Host.Outcome State Fault Refusal :=
  .next (withReg s r fun r => s.writePc (s.readReg r))

end Sys2Proof.Machine
end

