-- ==== Sys2Proof/Machine/Modr.lean ====
section
/-!
DEFINITION. MODR (`spec/43_modr.md`). The meaning starts with `pc` just past the instruction (log entry 6).
-/

namespace Sys2Proof.Machine

/-- MODR r (R110): `x[r] <- rem`; `rem` is not changed. -/
def execModr (r : Byte) (s : State) : Host.Outcome State Fault Refusal :=
  .next (withReg s r fun r => s.writeReg r s.rem)

end Sys2Proof.Machine
end

