-- ==== Sys2Proof/Machine/Dispatch.lean ====
section
/-!
DEFINITION. The dispatch on the opcode of R153 of `spec/70_reset_and_hazards.md`: one arm per instruction.
-/

namespace Sys2Proof.Machine

def exec (i : Instr) (s : State) : Host.Outcome State Fault Refusal :=
  match i with
  | .add a b d => Sys2Proof.Machine.execAdd a b d s
  | .sub a b d => Sys2Proof.Machine.execSub a b d s
  | .mul a b d => Sys2Proof.Machine.execMul a b d s
  | .mod a b d => Sys2Proof.Machine.execMod a b d s
  | .inc r => Sys2Proof.Machine.execInc r s
  | .dec r => Sys2Proof.Machine.execDec r s
  | .eq a b => Sys2Proof.Machine.execEq a b s
  | .neq a b => Sys2Proof.Machine.execNeq a b s
  | .gt a b => Sys2Proof.Machine.execGt a b s
  | .gte a b => Sys2Proof.Machine.execGte a b s
  | .lt a b => Sys2Proof.Machine.execLt a b s
  | .lte a b => Sys2Proof.Machine.execLte a b s
  | .hlt => Sys2Proof.Machine.execHlt s
  | .nop => Sys2Proof.Machine.execNop s
  | .load r hi lo => Sys2Proof.Machine.execLoad r hi lo s
  | .jmp r => Sys2Proof.Machine.execJmp r s
  | .modr r => Sys2Proof.Machine.execModr r s

end Sys2Proof.Machine
end

