-- ==== Sys2Proof/WellFormed.lean ====
section
/-!
DEFINITION. Which instruction terms name only registers that exist (R11, R13 of `spec/10_state.md`; R164 of
`spec/70_reset_and_hazards.md`: "Register-index bytes must be 0 to 31"). This is the programmer's rule and not the
decoder's: an instruction that breaks it still decodes, and raises `RegisterIndex` when it executes (R58 of
`spec/30_encoding.md`).
-/

namespace Sys2Proof

/-- The valid indices are 0 to 31 (R13). -/
def validIndex (b : Byte) : Bool := decide (b.toNat < Config.nreg)

/-- Every register-index byte of the instruction names a register. LOAD's `hi` and `lo` take all 256 values (R58). -/
def Instr.wellFormed (i : Instr) : Bool := i.regBytes.all validIndex

end Sys2Proof
end

