-- ==== Sys2Proof/Decode.lean ====
section
/-!
DEFINITION. The Instruction Table of R55 (`spec/30_encoding.md`), the decoder and the encoder: "two views of one table"
(R53, R60). The decoder is total on any bytes and rejects by name.
-/

namespace Sys2Proof

/-- The arity of a format: how many operand bytes follow the opcode byte (R51). -/
def Format.arity : Format → Nat
  | .z => 0
  | .r => 1
  | .rr => 2
  | .rrr => 3
  | .ri => 3

/-- The length of an instruction in bytes is 1 + its arity (R53). -/
def Format.length (f : Format) : Nat := 1 + f.arity

/-- One row of the Instruction Table (R55). -/
structure Row where
  /-- the value of `I[0]` -/
  number : Byte
  /-- the instruction -/
  opcode : Opcode
  /-- the mnemonic as the table spells it -/
  mnemonic : List Char
  /-- the format, which gives the arity and the length -/
  format : Format
  deriving DecidableEq, Repr

/-- The Instruction Table (R55). LOAD = 15 is the source's; the other numbers are the spec's decision D1 (R56). -/
def instructionTable : List Row :=
  [ ⟨0x01, .add, ['A', 'D', 'D'], .rrr⟩,
    ⟨0x02, .sub, ['S', 'U', 'B'], .rrr⟩,
    ⟨0x03, .mul, ['M', 'U', 'L'], .rrr⟩,
    ⟨0x04, .mod, ['M', 'O', 'D'], .rrr⟩,
    ⟨0x05, .inc, ['I', 'N', 'C'], .r⟩,
    ⟨0x06, .dec, ['D', 'E', 'C'], .r⟩,
    ⟨0x07, .eq, ['E', 'Q'], .rr⟩,
    ⟨0x08, .neq, ['N', 'E', 'Q'], .rr⟩,
    ⟨0x09, .gt, ['G', 'T'], .rr⟩,
    ⟨0x0A, .gte, ['G', 'T', 'E'], .rr⟩,
    ⟨0x0B, .lt, ['L', 'T'], .rr⟩,
    ⟨0x0C, .lte, ['L', 'T', 'E'], .rr⟩,
    ⟨0x0D, .hlt, ['H', 'L', 'T'], .z⟩,
    ⟨0x0E, .nop, ['N', 'O', 'P'], .z⟩,
    ⟨0x0F, .load, ['L', 'O', 'A', 'D'], .ri⟩,
    ⟨0x10, .jmp, ['J', 'M', 'P'], .r⟩,
    ⟨0x11, .modr, ['M', 'O', 'D', 'R'], .r⟩ ]

/-- The decoder's view: the row whose number is the byte, matched against the whole byte (R55). `none` is the
"invalid opcode" failure (R57, R60). -/
def rowOfByte (b : Byte) : Option Row :=
  instructionTable.find? fun row => row.number == b

/-- The encoder's view: the row of an opcode (R60). -/
def rowOfOpcode (o : Opcode) : Option Row :=
  instructionTable.find? fun row => row.opcode == o

/-- The numeric byte of an opcode, read from the table. -/
def opcodeByte (o : Opcode) : Byte :=
  match rowOfOpcode o with
  | some row => row.number
  | none => 0

/-- The format of an opcode, read from the table. -/
def formatOf (o : Opcode) : Format :=
  match rowOfOpcode o with
  | some row => row.format
  | none => .z

/-- The length in bytes of an instruction (R15 of `spec/10_state.md`, R53). -/
def Instr.length (i : Instr) : Nat := (formatOf i.opcode).length

/-- Operand byte number `k` of a list of fetched operand bytes. A cycle fetches exactly the arity's number of bytes
before it builds the instruction, so the default is never used (`build_operands` in `Sys2Proof/Laws/Decode.lean`). -/
def operandByte (ops : List Byte) (k : Nat) : Byte := ops.getD k 0

/-- The instruction of an opcode with its operand bytes, taken raw (R54): `a`, `b`, `d`, or `r`, or `r`, `hi`, `lo`
in image order (R52). -/
def build (o : Opcode) (ops : List Byte) : Instr :=
  match o with
  | .add => .add (operandByte ops 0) (operandByte ops 1) (operandByte ops 2)
  | .sub => .sub (operandByte ops 0) (operandByte ops 1) (operandByte ops 2)
  | .mul => .mul (operandByte ops 0) (operandByte ops 1) (operandByte ops 2)
  | .mod => .mod (operandByte ops 0) (operandByte ops 1) (operandByte ops 2)
  | .inc => .inc (operandByte ops 0)
  | .dec => .dec (operandByte ops 0)
  | .eq => .eq (operandByte ops 0) (operandByte ops 1)
  | .neq => .neq (operandByte ops 0) (operandByte ops 1)
  | .gt => .gt (operandByte ops 0) (operandByte ops 1)
  | .gte => .gte (operandByte ops 0) (operandByte ops 1)
  | .lt => .lt (operandByte ops 0) (operandByte ops 1)
  | .lte => .lte (operandByte ops 0) (operandByte ops 1)
  | .hlt => .hlt
  | .nop => .nop
  | .load => .load (operandByte ops 0) (operandByte ops 1) (operandByte ops 2)
  | .jmp => .jmp (operandByte ops 0)
  | .modr => .modr (operandByte ops 0)

/-- Why a byte sequence holds no instruction at its front. -/
inductive DecodeError
  /-- there is no opcode byte: the sequence is empty -/
  | noOpcode
  /-- the opcode byte is 0 or 18 to 255 (R57) -/
  | invalidOpcode (b : Byte)
  /-- the sequence ends after `got` operand bytes, fewer than the opcode's arity (R122 of `spec/60_exceptions.md`) -/
  | missingOperand (got : Nat)
  deriving DecidableEq, Repr

/-- The decoder: the instruction at the front of a byte sequence, and the bytes after it. The length is learnt from the
opcode byte alone (R53), and the opcode byte is checked before any operand byte is looked for (R125 of
`spec/60_exceptions.md`). -/
def decode (bytes : List Byte) : Except DecodeError (Instr × List Byte) :=
  match bytes with
  | [] => .error .noOpcode
  | b :: rest =>
    match rowOfByte b with
    | none => .error (.invalidOpcode b)
    | some row =>
      if rest.length < row.format.arity then .error (.missingOperand rest.length)
      else .ok (build row.opcode (rest.take row.format.arity), rest.drop row.format.arity)

/-- The encoder: "append the opcode's numeric byte, then append one byte per operand" (R68). -/
def encode (i : Instr) : List Byte := opcodeByte i.opcode :: i.operands

/-- The bytes of a sequence of instructions: no padding, no separator (R50). -/
def encodeAll (is : List Instr) : List Byte := is.flatMap encode

/-- Decoding a whole byte sequence from offset 0, instruction after instruction (R71). `fuel` bounds the number of
instructions; the length of the sequence is always enough. -/
def decodeAllFuel (fuel : Nat) (bytes : List Byte) : Except DecodeError (List Instr) :=
  match fuel with
  | 0 => .ok []
  | fuel + 1 =>
    match bytes with
    | [] => .ok []
    | _ :: _ =>
      match decode bytes with
      | .error e => .error e
      | .ok (i, rest) =>
        match decodeAllFuel fuel rest with
        | .error e => .error e
        | .ok is => .ok (i :: is)

/-- Decoding a whole byte sequence from offset 0. -/
def decodeAll (bytes : List Byte) : Except DecodeError (List Instr) :=
  decodeAllFuel bytes.length bytes

/-- The bytes of an instruction whose bits are `w`, numbered as `spec/opcode_table.json` numbers them: bits 7..0 are the
first byte; every bit from `nbits` on is 0, up to the longest instruction. -/
def tableBytes (nbits w : Nat) : List Byte :=
  (List.range Config.maxInstrBytes).map fun k => BitVec.ofNat 8 ((w % 2 ^ nbits) / 256 ^ k)

/-- The instruction the decoder reads from a word of the opcode table. -/
def decodeTableWord (nbits w : Nat) : Option Instr :=
  match decode (tableBytes nbits w) with
  | .ok (i, _) => some i
  | .error _ => none

end Sys2Proof
end

