-- ==== Sys2Proof/Machine/Fetch.lean ====
section
/-!
DEFINITION. The fetch of one whole instruction: the opcode byte, its decoding against the Instruction Table, then the
operand bytes (R125 steps 1 to 3 of `spec/60_exceptions.md`, R153 of `spec/70_reset_and_hazards.md`).
-/

namespace Sys2Proof.Machine

/-- Fetch and decode the instruction at `pc`. The opcode byte is fetched, and `pc` advanced past it, before it is decoded;
no operand byte is fetched for an invalid opcode (R57 of `spec/30_encoding.md`). -/
def State.fetchInstr (s : State) : Fetched Instr :=
  match s.fetch with
  | .raised t => .raised t
  | .got b t =>
    match rowOfByte b with
    | none => .raised (t.raise .invalidOpcode)
    | some row =>
      match t.fetchBytes row.format.arity with
      | .raised u => .raised u
      | .got ops u => .got (build row.opcode ops) u

/-- The image bytes at `addr`, `addr + 1`, ..., at most `n` of them, ending at the end of the image: what a decoder sees
there. -/
def State.bytesAt (s : State) (addr : Word) (n : Nat) : List Byte :=
  match n with
  | 0 => []
  | n + 1 =>
    match s.memRead addr with
    | none => []
    | some b => b :: s.bytesAt (addr + 1) n

/-- The state with consecutive bytes of the image put in place from `addr` on, and the image made long enough to hold
them; unchanged where they would pass the largest image. Only `withFetchWord` and the host's load use it. -/
def State.placeBytes (s : State) (addr : Nat) (bytes : List Byte) : State :=
  if h : max s.len.val (addr + bytes.length) < Config.imageBound then
    { s with imem := Memory.place s.imem addr bytes, len := ⟨max s.len.val (addr + bytes.length), h⟩ }
  else s

end Sys2Proof.Machine
end

