-- ==== Sys2Proof/Machine/Step.lean ====
section
/-!
DEFINITION. One cycle and the host's `Step` (R153, R154 of `spec/70_reset_and_hazards.md`).
-/

namespace Sys2Proof.Machine

/-- `Cycle()` of R153: fetch and decode one instruction, then perform its effect. It does not test `pc >= L`: a cycle
started there faults in its first fetch. -/
def cycle (s : State) : Host.Outcome State Fault Refusal :=
  match s.fetchInstr with
  | .raised t => .next t
  | .got i t => exec i t

/-- `Step()` of R154: nothing happens to a faulted block, else exactly one cycle (log entry 4). -/
def step (s : State) : Host.Outcome State Fault Refusal :=
  if s.faulted then .next s else cycle s

/-- The state with an instruction of the opcode table placed at `pc`, so that the next step runs it: its bytes in the
image, the length that holds them, and no fault recorded (log entry 11). -/
def State.withFetchWord (s : State) (nbits w : Nat) : State :=
  { s.placeBytes s.pc.toNat (tableBytes nbits w) with faulted := false, faultCause := 0 }

end Sys2Proof.Machine
end

