-- ==== Sys2Proof/Machine/Assembly.lean ====
section
/-!
DEFINITION. The assembly notation of R62 to R70 of `spec/30_encoding.md`, as a function from lines of characters to the
bytes of a Program Image, and the disassembly of R68. The hardware never sees text: nothing in `step` uses this file (R3
of `spec/00_scope.md`). Corners the rules leave open are in log entry 9.
-/

namespace Sys2Proof.Machine

/-- An operand token (R65): a tagged value that fits one byte. -/
inductive Token
  /-- `#n` -/
  | immediate (b : Byte)
  /-- `$n` -/
  | registerRef (b : Byte)
  deriving DecidableEq, Repr

/-- The byte a token assembles to: the tag is discarded (R68). -/
def Token.byte : Token → Byte
  | .immediate b => b
  | .registerRef b => b

/-- Why a line is rejected; lines are counted from 1. -/
inductive AsmError
  /-- no space, and not a bare zero-arity mnemonic (R66) -/
  | invalidLine (line : Nat)
  /-- the mnemonic matches no row of the Instruction Table (R64) -/
  | invalidMnemonic (line : Nat) (text : List Char)
  /-- a token that is neither `#` nor `$` and a decimal number of 0 to 255 (R65) -/
  | unexpectedToken (line : Nat) (text : List Char)
  /-- the number of operand tokens is not the arity (R67) -/
  | operandCount (line : Nat)
  deriving DecidableEq, Repr

/-! ## Text -/

/-- Text without its leading white space. -/
def trimLeft (cs : List Char) : List Char := cs.dropWhile Char.isWhitespace

/-- Text without its trailing white space. -/
def trimRight (cs : List Char) : List Char := (trimLeft cs.reverse).reverse

/-- Text without white space on either side (R62). -/
def trim (cs : List Char) : List Char := trimRight (trimLeft cs)

/-- The text before the first space, and the text after it if there is one (R62). -/
def splitFirstSpace (cs : List Char) : List Char × Option (List Char) :=
  match cs with
  | [] => ([], none)
  | c :: cs =>
    if c = ' ' then ([], some cs)
    else (c :: (splitFirstSpace cs).1, (splitFirstSpace cs).2)

/-- Text split at every occurrence of a separator. -/
def splitAt (sep : Char) (cs : List Char) : List (List Char) :=
  match cs with
  | [] => [[]]
  | c :: cs =>
    if c = sep then [] :: splitAt sep cs
    else
      match splitAt sep cs with
      | [] => [[c]]
      | t :: ts => (c :: t) :: ts

/-- The value of a decimal digit (R65: digits `0` to `9` only). -/
def digitValue (c : Char) : Option Nat :=
  if 48 ≤ c.toNat ∧ c.toNat ≤ 57 then some (c.toNat - 48) else none

/-- The value of a sequence of decimal digits read after the value `acc`. -/
def decimalValue (acc : Nat) (cs : List Char) : Option Nat :=
  match cs with
  | [] => some acc
  | c :: cs =>
    match digitValue c with
    | none => none
    | some d => decimalValue (10 * acc + d) cs

/-- An unsigned 8-bit integer in decimal (R65). -/
def parseByte (cs : List Char) : Option Byte :=
  match cs with
  | [] => none
  | c :: cs =>
    match decimalValue 0 (c :: cs) with
    | none => none
    | some n => if n ≤ 255 then some (BitVec.ofNat 8 n) else none

/-! ## The lexer -/

/-- One operand token (R65). The text an error carries is the token after trimming, and a token with no character, which R65
does not speak of, is an error with empty text: DESIGN CHOICE (log entry 9). -/
def parseToken (line : Nat) (cs : List Char) : Except AsmError Token :=
  match cs with
  | [] => .error (.unexpectedToken line [])
  | c :: ds =>
    match parseByte ds with
    | none => .error (.unexpectedToken line (c :: ds))
    | some b =>
      if c = '#' then .ok (.immediate b)
      else if c = '$' then .ok (.registerRef b)
      else .error (.unexpectedToken line (c :: ds))

/-- Operand tokens in order, each trimmed (R62); the first bad one is reported (DESIGN CHOICE, log entry 9). -/
def parseTokens (line : Nat) (ts : List (List Char)) : Except AsmError (List Token) :=
  match ts with
  | [] => .ok []
  | t :: ts =>
    match parseToken line (trim t) with
    | .error e => .error e
    | .ok v =>
      match parseTokens line ts with
      | .error e => .error e
      | .ok vs => .ok (v :: vs)

/-- The operand remainder of a line: empty, or tokens separated by commas (R62). A remainder of white space only counts as
empty; an empty candidate beside a comma goes to `parseToken` as a token: DESIGN CHOICE (log entry 9). -/
def parseOperands (line : Nat) (cs : List Char) : Except AsmError (List Token) :=
  if trim cs = [] then .ok [] else parseTokens line (splitAt ',' cs)

/-- The row of a mnemonic: case-insensitive and exact (R64). `none` is the "no such opcode" failure (R60). -/
def rowOfMnemonic (cs : List Char) : Option Row :=
  instructionTable.find? fun row => row.mnemonic == cs.map Char.toUpper

/-- A line that holds only a zero-arity mnemonic, with or without trailing white space (R66). -/
def bareRow (cs : List Char) : Option Row :=
  match rowOfMnemonic (trimRight cs) with
  | none => none
  | some row => if row.format.arity = 0 then some row else none

/-- One line that is neither a comment nor blank: its opcode and operand tokens. An unknown mnemonic is reported before
any error of an operand, with the text before the first space, as written: DESIGN CHOICE (log entry 9). -/
def lexInstruction (line : Nat) (cs : List Char) : Except AsmError (Opcode × List Token) :=
  match bareRow cs with
  | some row => .ok (row.opcode, [])
  | none =>
    match splitFirstSpace cs with
    | (_, none) => .error (.invalidLine line)
    | (name, some operands) =>
      match rowOfMnemonic name with
      | none => .error (.invalidMnemonic line name)
      | some row =>
        match parseOperands line operands with
        | .error e => .error e
        | .ok ts =>
          if ts.length = row.format.arity then .ok (row.opcode, ts) else .error (.operandCount line)

/-- One line: `none` for a comment (R63: `;` is its first character) or a line that is empty or all white space. -/
def lexLine (line : Nat) (cs : List Char) : Except AsmError (Option (Opcode × List Token)) :=
  if cs.head? = some ';' then .ok none
  else if trim cs = [] then .ok none
  else
    match lexInstruction line cs with
    | .error e => .error e
    | .ok i => .ok (some i)

/-- The lines of a document from line number `line` on: every failure, and the instructions of the good lines. -/
def lexLines (line : Nat) (ls : List (List Char)) : List AsmError × List (Opcode × List Token) :=
  match ls with
  | [] => ([], [])
  | cs :: ls =>
    match lexLine line cs with
    | .error e => (e :: (lexLines (line + 1) ls).1, (lexLines (line + 1) ls).2)
    | .ok none => lexLines (line + 1) ls
    | .ok (some i) => ((lexLines (line + 1) ls).1, i :: (lexLines (line + 1) ls).2)

/-- A document, batch or nothing: if any line fails, the full list of failures and no tokens (R70). -/
def lexDocument (ls : List (List Char)) : Except (List AsmError) (List (Opcode × List Token)) :=
  match lexLines 1 ls with
  | ([], is) => .ok is
  | (e :: es, _) => .error (e :: es)

/-! ## The encoder -/

/-- One lexed instruction to its bytes (R68). -/
def encodeTokens (i : Opcode × List Token) : List Byte := opcodeByte i.1 :: i.2.map Token.byte

/-- A document to the bytes of a Program Image: no header, instructions in line order (R61, R62). -/
def assemble (ls : List (List Char)) : Except (List AsmError) (List Byte) :=
  match lexDocument ls with
  | .error es => .error es
  | .ok is => .ok (is.flatMap encodeTokens)

/-- A text, one instruction per line (R62). -/
def assembleText (cs : List Char) : Except (List AsmError) (List Byte) := assemble (splitAt '\n' cs)

/-! ## Disassembly -/

/-- The operand tokens of an instruction: `$` on the bytes the hardware uses as register indices, `#` on the bytes it uses
as numbers (R68). -/
def tokensOf (i : Instr) : List Token :=
  match formatOf i.opcode, i.operands with
  | .ri, r :: imms => .registerRef r :: imms.map .immediate
  | _, ops => ops.map .registerRef

/-- The character of a decimal digit. -/
def digitChar (n : Nat) : Char := Char.ofNat (48 + n)

/-- A byte in decimal, without leading zeros. -/
def printByte (b : Byte) : List Char :=
  let n := b.toNat
  if n < 10 then [digitChar n]
  else if n < 100 then [digitChar (n / 10), digitChar (n % 10)]
  else [digitChar (n / 100), digitChar (n / 10 % 10), digitChar (n % 10)]

/-- A token as text. -/
def printToken : Token → List Char
  | .immediate b => '#' :: printByte b
  | .registerRef b => '$' :: printByte b

/-- Operand tokens as text, separated by a comma and a space. -/
def printTokens (ts : List Token) : List Char :=
  match ts with
  | [] => []
  | [t] => printToken t
  | t :: ts => printToken t ++ [',', ' '] ++ printTokens ts

/-- The mnemonic of an opcode, read from the table. -/
def mnemonicOf (o : Opcode) : List Char :=
  match rowOfOpcode o with
  | some row => row.mnemonic
  | none => []

/-- An instruction as a line of the notation. -/
def disassemble (i : Instr) : List Char :=
  match tokensOf i with
  | [] => mnemonicOf i.opcode
  | ts => mnemonicOf i.opcode ++ ' ' :: printTokens ts

end Sys2Proof.Machine
end

