-- ==== Sys2Proof/Machine/HostOps.lean ====
section
/-!
DEFINITION. The host's operations of R9 of `spec/00_scope.md` and R150 to R160 of `spec/70_reset_and_hazards.md`. Each is
applied between cycles, one at a time (R160); a use during a run has no transition (U13; log entry 7).
-/

namespace Sys2Proof.Machine

/-- `Reset` (R150): every piece of state at its reset value, in any status; `IMem` and `L` are not touched. -/
def State.hostReset (s : State) : State :=
  { State.reset with imem := s.imem, len := s.len }

/-- The host places a Program Image of any bytes and fixes its length (R152 duty 1), or `none` when it is longer than
`2^31 - 1` bytes (U20; log entry 12). -/
def State.loadImage (s : State) (bytes : List Byte) : Option State :=
  if bytes.length < Config.imageBound then
    some (({ s with imem := [], len := 0 } : State).placeBytes 0 bytes)
  else none

/-- The state in which a run of an image starts: the image placed, then `Reset` (R152, R157). -/
def boot (bytes : List Byte) : Option State :=
  (State.reset.loadImage bytes).map State.hostReset

/-- One turn of the loop of `Run` (R155): a cycle if the block is Running, nothing otherwise. A cycle that answered no
state would end the run where it stands; none does (stated as `Obligations.EveryStepAnswersNextState`). -/
def State.runTurn (s : State) : State :=
  match s.status with
  | .running =>
    match cycle s with
    | .next t => t
    | .fault _ => s
    | .refused _ => s
  | .halted => s
  | .faulted => s

/-- `Run` (R155) for at most `fuel` cycles: the hardware has no limit, so a host or an executor brings its own (R165,
decision D23). -/
def State.runFor (s : State) (fuel : Nat) : State :=
  match fuel with
  | 0 => s
  | fuel + 1 => s.runTurn.runFor fuel

/-- `Run` applied to `s` ends in `t`: after some number of cycles the block is Halted or Faulted (R155, R157). -/
def State.RunEnds (s t : State) : Prop :=
  ∃ fuel, s.runFor fuel = t ∧ t.status ≠ .running

/-- What the host can ask of the block (R9). `run` carries the host's own bound on the number of cycles. -/
inductive HostOp
  | reset
  | step
  | run (fuel : Nat)
  | setPC (v : Word)
  | readReg (i : Nat)
  | readAllRegs
  | readState
  deriving DecidableEq, Repr

/-- What the block answers the host. -/
inductive HostAnswer
  /-- the operation is done; its outcome is read from the status and the fault cause -/
  | done
  /-- one register -/
  | reg (v : Word)
  /-- all 32 registers -/
  | regs (v : Vector Word Config.nreg)
  /-- the rest of the state (R158) -/
  | rest (pc : Word) (rem : Word) (flag : Bool) (status : Status) (faultCause : BitVec 3)
  /-- the operation is refused and has changed nothing -/
  | refused (r : Refusal)
  deriving DecidableEq, Repr

/-- `Step` (R154) as the host issues it. -/
def State.hostStep (s : State) : State × HostAnswer :=
  match step s with
  | .next t => (t, .done)
  | .fault _ => (s, .done)
  | .refused r => (s, .refused r)

/-- `SetPC(v)` (R159): any value, in the Running and Halted statuses; refused without a change in the Faulted status. It
writes nothing but `pc`. -/
def State.setPC (s : State) (v : Word) : State × HostAnswer :=
  if s.faulted then (s, .refused .setPCWhileFaulted) else (s.writePc v, .done)

/-- `ReadReg(i)` (R158): refused for `i >= 32`, without a fault in the block. -/
def State.hostReadReg (s : State) (i : Nat) : HostAnswer :=
  if h : i < Config.nreg then .reg (s.readReg ⟨i, h⟩) else .refused .readRegIndex

/-- One host operation, applied between cycles. -/
def hostOp (op : HostOp) (s : State) : State × HostAnswer :=
  match op with
  | .reset => (s.hostReset, .done)
  | .step => s.hostStep
  | .run fuel => (s.runFor fuel, .done)
  | .setPC v => s.setPC v
  | .readReg i => (s, s.hostReadReg i)
  | .readAllRegs => (s, .regs s.regs)
  | .readState => (s, .rest s.pc s.rem s.flag s.status s.faultCause)

end Sys2Proof.Machine
end

