-- ==== Sys2Proof/Safety.lean ====
section
/-!
DEFINITION. What counts as a good state and a good end of a run, in the terms the statements use.
-/

namespace Sys2Proof.Machine

/-- The fault registers agree: `faulted = 1` if and only if `fault_cause != 0`, and the codes 5 to 7 never occur (R20 of
`spec/10_state.md`). -/
def State.faultRegsWf (s : State) : Bool :=
  decide (s.faulted = decide (s.faultCause ≠ 0)) && decide (s.faultCause.toNat ≤ 4)

/-- The image is in canonical form and lists no byte at or past its length. -/
def State.imageWf (s : State) : Bool :=
  Memory.wf s.imem && s.imem.all fun cell => decide (cell.1 < s.len.val)

/-- The invariant of the machine: every step and every host operation keeps it. -/
def State.Inv (s : State) : Prop :=
  s.faultRegsWf = true ∧ s.imageWf = true

/-- A normal end of a run: Halted with no fault recorded (R157 of `spec/70_reset_and_hazards.md`). -/
def State.NormalEnd (s : State) : Prop :=
  s.status = .halted ∧ s.faultCause = 0

/-- A run of an image is safe when it ends, and ends normally. -/
def SafeRun (bytes : List Byte) : Prop :=
  ∃ s t, boot bytes = some s ∧ s.RunEnds t ∧ t.NormalEnd

end Sys2Proof.Machine
end

