-- ==== Sys2Proof/Certificates/Slice0/Obligations.lean ====
section
/-!
DEFINITION. The statements for the provers. `s.memRead a` is one byte of the Program Image (R33), `s.readReg r` is `x[r]`;
`writePc`, `writeReg`, `writeRem`, `writeFlag` and `raise` each change the piece of state they name and nothing else, so an
equation between a step and one of them states the whole frame.
-/

open Sys2Proof Sys2Proof.Machine

/-! ## Encoding -/

/-- R55, R57: words written out from the spec's encodings, one for each format and one invalid byte. -/
def Obligations.WordsOfEachFormatDecode : Prop :=
  decode [0x01, 0x0D, 0x0E, 0x0F] = .ok (.add 13 14 15, []) ∧
  decode [0x04, 0x0D, 0x0E, 0x0F] = .ok (.mod 13 14 15, []) ∧
  decode [0x05, 0x02, 0x0E] = .ok (.inc 2, [0x0E]) ∧
  decode [0x0B, 0x01, 0x02] = .ok (.lt 1 2, []) ∧
  decode [0x0D] = .ok (.hlt, []) ∧
  decode [0x0F, 0x0D, 0x0F, 0x0F] = .ok (.load 13 15 15, []) ∧
  decode [0x10, 0x01] = .ok (.jmp 1, []) ∧
  decode [0x11, 0x10] = .ok (.modr 16, []) ∧
  decode [0x63] = .error (.invalidOpcode 99) ∧
  decode [0x01, 0x00, 0x01] = .error (.missingOperand 2)

/-- R55, R51: the opcode number, the mnemonic, the arity and the length of every row. -/
def Obligations.InstructionTableIsTheSpecs : Prop :=
  instructionTable.map (fun row => (row.number.toNat, row.mnemonic, row.format.arity, row.format.length)) =
    [(1, ['A', 'D', 'D'], 3, 4), (2, ['S', 'U', 'B'], 3, 4), (3, ['M', 'U', 'L'], 3, 4), (4, ['M', 'O', 'D'], 3, 4),
     (5, ['I', 'N', 'C'], 1, 2), (6, ['D', 'E', 'C'], 1, 2), (7, ['E', 'Q'], 2, 3), (8, ['N', 'E', 'Q'], 2, 3),
     (9, ['G', 'T'], 2, 3), (10, ['G', 'T', 'E'], 2, 3), (11, ['L', 'T'], 2, 3), (12, ['L', 'T', 'E'], 2, 3),
     (13, ['H', 'L', 'T'], 0, 1), (14, ['N', 'O', 'P'], 0, 1), (15, ['L', 'O', 'A', 'D'], 3, 4),
     (16, ['J', 'M', 'P'], 1, 2), (17, ['M', 'O', 'D', 'R'], 1, 2)]

/-- Decoding an encoded instruction, whatever follows it, gives it back; and whatever the decoder accepts is the encoding
of what it answers. Every operand byte takes all 256 values. -/
def Obligations.DecodeAndEncodeAgree : Prop :=
  (∀ (i : Instr) (rest : List Byte), decode (encode i ++ rest) = .ok (i, rest)) ∧
  (∀ (bytes rest : List Byte) (i : Instr), decode bytes = .ok (i, rest) → bytes = encode i ++ rest)

/-- The round trip of a whole byte stream, both ways, and injectivity on (mnemonic, operand bytes): the inference that
R71 marks as its own, "encoding is injective on (mnemonic, operand bytes)". -/
def Obligations.StreamRoundTrip : Prop :=
  (∀ is : List Instr, decodeAll (encodeAll is) = .ok is) ∧
  (∀ (bytes : List Byte) (is : List Instr), decodeAll bytes = .ok is → encodeAll is = bytes) ∧
  (∀ i j : Instr, i.opcode = j.opcode ∧ i.operands = j.operands ↔ encode i = encode j)

/-- R57: 239 bytes match no opcode; fetching one raises `InvalidOpcode` with `pc` past it and no operand byte fetched; the
17 others never raise it. -/
def Obligations.InvalidOpcodeBytes : Prop :=
  (∀ b : Byte, rowOfByte b = none ↔ b.toNat = 0 ∨ 18 ≤ b.toNat) ∧
  ((List.range 256).filter fun n => (rowOfByte (BitVec.ofNat 8 n)).isNone).length = 239 ∧
  (∀ (s : State) (b : Byte), s.faulted = false → s.memRead s.pc = some b → (b.toNat = 0 ∨ 18 ≤ b.toNat) →
    step s = .next ((s.writePc (s.pc + 1)).raise .invalidOpcode)) ∧
  (∀ (s t : State) (b : Byte), s.faulted = false → s.memRead s.pc = some b → 1 ≤ b.toNat → b.toNat ≤ 17 →
    step s = .next t → t.faulted = true → t.faultCause ≠ 1)

/-! ## One cycle of each instruction: encoding, result, frame and faults -/

/-- R81, R82, R83: a cycle at an ADD, SUB or MUL byte. -/
def Obligations.AddSubMulCycle : Prop :=
  ∀ (s : State) (op : Byte) (f : Int → Int → Int),
    (op = 0x01 ∧ f = (fun m n => m + n)) ∨ (op = 0x02 ∧ f = (fun m n => m - n)) ∨
      (op = 0x03 ∧ f = (fun m n => m * n)) →
    s.faulted = false → s.memRead s.pc = some op →
    (∀ a b d : Fin 32,
      s.memRead (s.pc + 1) = some (BitVec.ofNat 8 a.val) → s.memRead (s.pc + 2) = some (BitVec.ofNat 8 b.val) →
      s.memRead (s.pc + 3) = some (BitVec.ofNat 8 d.val) →
      step s = .next ((s.writePc (s.pc + 4)).writeReg d
        (BitVec.ofInt 32 (f (s.readReg a).toInt (s.readReg b).toInt)))) ∧
    (∀ a b d : Byte,
      s.memRead (s.pc + 1) = some a → s.memRead (s.pc + 2) = some b → s.memRead (s.pc + 3) = some d →
      32 ≤ a.toNat ∨ 32 ≤ b.toNat ∨ 32 ≤ d.toNat →
      step s = .next ((s.writePc (s.pc + 4)).raise .registerIndex)) ∧
    (∀ k : Nat, k < 3 → (∀ j, j < k → s.memRead (s.pc + 1 + BitVec.ofNat 32 j) ≠ none) →
      s.memRead (s.pc + 1 + BitVec.ofNat 32 k) = none →
      step s = .next ((s.writePc (s.pc + 1 + BitVec.ofNat 32 k)).raise .imageOutOfBounds))

/-- R84, R124: a cycle at a MOD byte. -/
def Obligations.ModCycle : Prop :=
  ∀ s : State, s.faulted = false → s.memRead s.pc = some 0x04 →
    (∀ a b d : Fin 32,
      s.memRead (s.pc + 1) = some (BitVec.ofNat 8 a.val) → s.memRead (s.pc + 2) = some (BitVec.ofNat 8 b.val) →
      s.memRead (s.pc + 3) = some (BitVec.ofNat 8 d.val) →
      ((s.readReg b).toInt = 0 → step s = .next ((s.writePc (s.pc + 4)).raise .divideByZero)) ∧
      ((s.readReg b).toInt ≠ 0 →
        step s = .next (((s.writePc (s.pc + 4)).writeReg d
            (BitVec.ofInt 32 (Int.tdiv (s.readReg a).toInt (s.readReg b).toInt))).writeRem
          (BitVec.ofInt 32 ((s.readReg a).toInt -
            Int.tdiv (s.readReg a).toInt (s.readReg b).toInt * (s.readReg b).toInt))))) ∧
    (∀ a b d : Byte,
      s.memRead (s.pc + 1) = some a → s.memRead (s.pc + 2) = some b → s.memRead (s.pc + 3) = some d →
      32 ≤ a.toNat ∨ 32 ≤ b.toNat ∨ 32 ≤ d.toNat →
      step s = .next ((s.writePc (s.pc + 4)).raise .registerIndex)) ∧
    (∀ k : Nat, k < 3 → (∀ j, j < k → s.memRead (s.pc + 1 + BitVec.ofNat 32 j) ≠ none) →
      s.memRead (s.pc + 1 + BitVec.ofNat 32 k) = none →
      step s = .next ((s.writePc (s.pc + 1 + BitVec.ofNat 32 k)).raise .imageOutOfBounds))

/-- R85, R86: a cycle at an INC or DEC byte. -/
def Obligations.IncDecCycle : Prop :=
  ∀ (s : State) (op : Byte) (f : Int → Int),
    (op = 0x05 ∧ f = (fun n => n + 1)) ∨ (op = 0x06 ∧ f = (fun n => n - 1)) →
    s.faulted = false → s.memRead s.pc = some op →
    (∀ r : Fin 32, s.memRead (s.pc + 1) = some (BitVec.ofNat 8 r.val) →
      step s = .next ((s.writePc (s.pc + 2)).writeReg r (BitVec.ofInt 32 (f (s.readReg r).toInt)))) ∧
    (∀ r : Byte, s.memRead (s.pc + 1) = some r → 32 ≤ r.toNat →
      step s = .next ((s.writePc (s.pc + 2)).raise .registerIndex)) ∧
    (s.memRead (s.pc + 1) = none → step s = .next ((s.writePc (s.pc + 1)).raise .imageOutOfBounds))

/-- R91 to R96: a cycle at a comparison byte. -/
def Obligations.ComparisonCycle : Prop :=
  ∀ (s : State) (op : Byte) (f : Int → Int → Bool),
    (op = 0x07 ∧ f = (fun m n => decide (m = n))) ∨ (op = 0x08 ∧ f = (fun m n => decide (m ≠ n))) ∨
      (op = 0x09 ∧ f = (fun m n => decide (m > n))) ∨ (op = 0x0A ∧ f = (fun m n => decide (m ≥ n))) ∨
      (op = 0x0B ∧ f = (fun m n => decide (m < n))) ∨ (op = 0x0C ∧ f = (fun m n => decide (m ≤ n))) →
    s.faulted = false → s.memRead s.pc = some op →
    (∀ a b : Fin 32,
      s.memRead (s.pc + 1) = some (BitVec.ofNat 8 a.val) → s.memRead (s.pc + 2) = some (BitVec.ofNat 8 b.val) →
      step s = .next ((s.writePc (s.pc + 3)).writeFlag (f (s.readReg a).toInt (s.readReg b).toInt))) ∧
    (∀ a b : Byte, s.memRead (s.pc + 1) = some a → s.memRead (s.pc + 2) = some b →
      32 ≤ a.toNat ∨ 32 ≤ b.toNat →
      step s = .next ((s.writePc (s.pc + 3)).raise .registerIndex)) ∧
    (∀ k : Nat, k < 2 → (∀ j, j < k → s.memRead (s.pc + 1 + BitVec.ofNat 32 j) ≠ none) →
      s.memRead (s.pc + 1 + BitVec.ofNat 32 k) = none →
      step s = .next ((s.writePc (s.pc + 1 + BitVec.ofNat 32 k)).raise .imageOutOfBounds))

/-- R100, R101: a cycle at a HLT or NOP byte only advances `pc`; the block is Halted after it exactly when the byte was
the last of the image. -/
def Obligations.HltNopCycle : Prop :=
  ∀ (s : State) (op : Byte), op = 0x0D ∨ op = 0x0E → s.faulted = false → s.memRead s.pc = some op →
    step s = .next (s.writePc (s.pc + 1)) ∧
    ((s.writePc (s.pc + 1)).status = .halted ↔ s.pc.toNat + 1 = s.len.val)

/-- R102: a cycle at a LOAD byte; `hi` is the more significant byte and neither is checked. -/
def Obligations.LoadCycle : Prop :=
  ∀ s : State, s.faulted = false → s.memRead s.pc = some 0x0F →
    (∀ (r : Fin 32) (hi lo : Byte),
      s.memRead (s.pc + 1) = some (BitVec.ofNat 8 r.val) → s.memRead (s.pc + 2) = some hi →
      s.memRead (s.pc + 3) = some lo →
      step s = .next ((s.writePc (s.pc + 4)).writeReg r (BitVec.ofNat 32 (hi.toNat * 256 + lo.toNat)))) ∧
    (∀ r hi lo : Byte,
      s.memRead (s.pc + 1) = some r → s.memRead (s.pc + 2) = some hi → s.memRead (s.pc + 3) = some lo →
      32 ≤ r.toNat → step s = .next ((s.writePc (s.pc + 4)).raise .registerIndex)) ∧
    (∀ k : Nat, k < 3 → (∀ j, j < k → s.memRead (s.pc + 1 + BitVec.ofNat 32 j) ≠ none) →
      s.memRead (s.pc + 1 + BitVec.ofNat 32 k) = none →
      step s = .next ((s.writePc (s.pc + 1 + BitVec.ofNat 32 k)).raise .imageOutOfBounds))

/-- R103: a cycle at a JMP byte: any target is taken; a target at or past the end, a negative one among them, leaves the
block Halted without a fault. -/
def Obligations.JmpCycle : Prop :=
  ∀ s : State, s.faulted = false → s.memRead s.pc = some 0x10 →
    (∀ r : Fin 32, s.memRead (s.pc + 1) = some (BitVec.ofNat 8 r.val) →
      step s = .next (s.writePc (s.readReg r)) ∧
      ((s.writePc (s.readReg r)).status = .halted ↔ s.len.val ≤ (s.readReg r).toNat) ∧
      ((s.writePc (s.readReg r)).status = .running ↔ (s.readReg r).toNat < s.len.val) ∧
      ((s.readReg r).toInt < 0 → (s.writePc (s.readReg r)).status = .halted)) ∧
    (∀ r : Byte, s.memRead (s.pc + 1) = some r → 32 ≤ r.toNat →
      step s = .next ((s.writePc (s.pc + 2)).raise .registerIndex)) ∧
    (s.memRead (s.pc + 1) = none → step s = .next ((s.writePc (s.pc + 1)).raise .imageOutOfBounds))

/-- R110: a cycle at a MODR byte. -/
def Obligations.ModrCycle : Prop :=
  ∀ s : State, s.faulted = false → s.memRead s.pc = some 0x11 →
    (∀ r : Fin 32, s.memRead (s.pc + 1) = some (BitVec.ofNat 8 r.val) →
      step s = .next ((s.writePc (s.pc + 2)).writeReg r s.rem)) ∧
    (∀ r : Byte, s.memRead (s.pc + 1) = some r → 32 ≤ r.toNat →
      step s = .next ((s.writePc (s.pc + 2)).raise .registerIndex)) ∧
    (s.memRead (s.pc + 1) = none → step s = .next ((s.writePc (s.pc + 1)).raise .imageOutOfBounds))

/-! ## Every instruction completes, and its frame -/

/-- ADD, SUB, MUL, INC, DEC, LOAD and MODR complete whenever their register bytes are 0 to 31: the destination register
holds the result and everything else is unchanged. -/
def Obligations.RegisterWritersComplete : Prop :=
  ∀ (s : State) (a b d : Fin 32) (hi lo : Byte) (i : Instr) (v : Word),
    (i = .add (BitVec.ofNat 8 a.val) (BitVec.ofNat 8 b.val) (BitVec.ofNat 8 d.val) ∧
      v = BitVec.ofInt 32 ((s.readReg a).toInt + (s.readReg b).toInt)) ∨
    (i = .sub (BitVec.ofNat 8 a.val) (BitVec.ofNat 8 b.val) (BitVec.ofNat 8 d.val) ∧
      v = BitVec.ofInt 32 ((s.readReg a).toInt - (s.readReg b).toInt)) ∨
    (i = .mul (BitVec.ofNat 8 a.val) (BitVec.ofNat 8 b.val) (BitVec.ofNat 8 d.val) ∧
      v = BitVec.ofInt 32 ((s.readReg a).toInt * (s.readReg b).toInt)) ∨
    (i = .inc (BitVec.ofNat 8 d.val) ∧ v = BitVec.ofInt 32 ((s.readReg d).toInt + 1)) ∨
    (i = .dec (BitVec.ofNat 8 d.val) ∧ v = BitVec.ofInt 32 ((s.readReg d).toInt - 1)) ∨
    (i = .load (BitVec.ofNat 8 d.val) hi lo ∧ v = BitVec.ofNat 32 (hi.toNat * 256 + lo.toNat)) ∨
    (i = .modr (BitVec.ofNat 8 d.val) ∧ v = s.rem) →
    ∃ t, exec i s = .next t ∧ t.readReg d = v ∧ (∀ r, r ≠ d → t.readReg r = s.readReg r) ∧
      t.pc = s.pc ∧ t.rem = s.rem ∧ t.flag = s.flag ∧ t.faulted = s.faulted ∧ t.faultCause = s.faultCause ∧
      t.len = s.len ∧ ∀ k, t.memRead k = s.memRead k

/-- MOD completes whenever its register bytes are 0 to 31 and the divisor register is not 0: quotient to the destination
register, remainder to `rem`, everything else unchanged. -/
def Obligations.ModCompletes : Prop :=
  ∀ (s : State) (a b d : Fin 32), (s.readReg b).toInt ≠ 0 →
    ∃ t, exec (.mod (BitVec.ofNat 8 a.val) (BitVec.ofNat 8 b.val) (BitVec.ofNat 8 d.val)) s = .next t ∧
      t.readReg d = BitVec.ofInt 32 (Int.tdiv (s.readReg a).toInt (s.readReg b).toInt) ∧
      t.rem = BitVec.ofInt 32 ((s.readReg a).toInt -
        Int.tdiv (s.readReg a).toInt (s.readReg b).toInt * (s.readReg b).toInt) ∧
      (∀ r, r ≠ d → t.readReg r = s.readReg r) ∧
      t.pc = s.pc ∧ t.flag = s.flag ∧ t.faulted = s.faulted ∧ t.faultCause = s.faultCause ∧
      t.len = s.len ∧ ∀ k, t.memRead k = s.memRead k

/-- EQ, NEQ, GT, GTE, LT and LTE complete whenever their register bytes are 0 to 31: the flag holds the relation of the
signed values, the first operand on the left, and everything else is unchanged. -/
def Obligations.ComparisonsComplete : Prop :=
  ∀ (s : State) (a b : Fin 32) (i : Instr) (p : Prop),
    (i = .eq (BitVec.ofNat 8 a.val) (BitVec.ofNat 8 b.val) ∧ p = ((s.readReg a).toInt = (s.readReg b).toInt)) ∨
    (i = .neq (BitVec.ofNat 8 a.val) (BitVec.ofNat 8 b.val) ∧ p = ((s.readReg a).toInt ≠ (s.readReg b).toInt)) ∨
    (i = .gt (BitVec.ofNat 8 a.val) (BitVec.ofNat 8 b.val) ∧ p = ((s.readReg a).toInt > (s.readReg b).toInt)) ∨
    (i = .gte (BitVec.ofNat 8 a.val) (BitVec.ofNat 8 b.val) ∧ p = ((s.readReg a).toInt ≥ (s.readReg b).toInt)) ∨
    (i = .lt (BitVec.ofNat 8 a.val) (BitVec.ofNat 8 b.val) ∧ p = ((s.readReg a).toInt < (s.readReg b).toInt)) ∨
    (i = .lte (BitVec.ofNat 8 a.val) (BitVec.ofNat 8 b.val) ∧ p = ((s.readReg a).toInt ≤ (s.readReg b).toInt)) →
    ∃ t, exec i s = .next t ∧ (t.flag = true ↔ p) ∧ (∀ r, t.readReg r = s.readReg r) ∧
      t.pc = s.pc ∧ t.rem = s.rem ∧ t.faulted = s.faulted ∧ t.faultCause = s.faultCause ∧
      t.len = s.len ∧ ∀ k, t.memRead k = s.memRead k

/-- HLT, NOP and JMP complete: HLT and NOP change nothing once their byte is fetched, JMP writes `pc` and nothing else. -/
def Obligations.ControlCompletes : Prop :=
  ∀ (s : State) (r : Fin 32),
    exec .hlt s = .next s ∧ exec .nop s = .next s ∧
    ∃ t, exec (.jmp (BitVec.ofNat 8 r.val)) s = .next t ∧ t.pc.toNat = (s.readReg r).toNat ∧
      (∀ q, t.readReg q = s.readReg q) ∧ t.rem = s.rem ∧ t.flag = s.flag ∧ t.faulted = s.faulted ∧
      t.faultCause = s.faultCause ∧ t.len = s.len ∧ ∀ k, t.memRead k = s.memRead k

/-- After R13 and R123, an instruction that names a register of 32 or more traps, whatever its other operands:
`RegisterIndex`, nothing else written; after R124, MOD with valid indices and a zero divisor traps with `DivideByZero`. That
`exec` starts with `pc` past the instruction, and so leaves it there, is the model's choice (log entry 6). -/
def Obligations.BadOperandsTrap : Prop :=
  (∀ (s : State) (i : Instr), (∃ b ∈ i.regBytes, 32 ≤ b.toNat) → exec i s = .next (s.raise .registerIndex)) ∧
  (∀ (s : State) (a b d : Fin 32), s.readReg b = 0 →
    exec (.mod (BitVec.ofNat 8 a.val) (BitVec.ofNat 8 b.val) (BitVec.ofNat 8 d.val)) s =
      .next (s.raise .divideByZero))

/-! ## Arithmetic -/

/-- R87: overflow of ADD, SUB, MUL, INC and DEC wraps modulo 2^32 and raises nothing: the result is congruent to the exact
value modulo 2^32, and is the exact value when that fits in 32 signed bits. -/
def Obligations.OverflowWraps : Prop :=
  ∀ (s : State) (a b d : Fin 32) (i : Instr) (n : Int),
    (i = .add (BitVec.ofNat 8 a.val) (BitVec.ofNat 8 b.val) (BitVec.ofNat 8 d.val) ∧
      n = (s.readReg a).toInt + (s.readReg b).toInt) ∨
    (i = .sub (BitVec.ofNat 8 a.val) (BitVec.ofNat 8 b.val) (BitVec.ofNat 8 d.val) ∧
      n = (s.readReg a).toInt - (s.readReg b).toInt) ∨
    (i = .mul (BitVec.ofNat 8 a.val) (BitVec.ofNat 8 b.val) (BitVec.ofNat 8 d.val) ∧
      n = (s.readReg a).toInt * (s.readReg b).toInt) ∨
    (i = .inc (BitVec.ofNat 8 d.val) ∧ n = (s.readReg d).toInt + 1) ∨
    (i = .dec (BitVec.ofNat 8 d.val) ∧ n = (s.readReg d).toInt - 1) →
    ∃ t, exec i s = .next t ∧ t.faulted = s.faulted ∧ t.flag = s.flag ∧
      (2 ^ 32 : Int) ∣ (t.readReg d).toInt - n ∧
      (-2 ^ 31 ≤ n → n < 2 ^ 31 → (t.readReg d).toInt = n)

/-- R84, R87: the laws of MOD's quotient and remainder: `n = q * m + r` exactly, `r` smaller than `m` in size and 0 or of
the sign of `n`; only -2^31 by -1 differs, where the quotient wraps and the remainder is 0. -/
def Obligations.DivisionLaws : Prop :=
  ∀ (s : State) (a b d : Fin 32), (s.readReg b).toInt ≠ 0 →
    ∃ t, exec (.mod (BitVec.ofNat 8 a.val) (BitVec.ofNat 8 b.val) (BitVec.ofNat 8 d.val)) s = .next t ∧
      ((s.readReg a).toInt = -2 ^ 31 ∧ (s.readReg b).toInt = -1 →
        (t.readReg d).toInt = -2 ^ 31 ∧ t.rem.toInt = 0) ∧
      (¬((s.readReg a).toInt = -2 ^ 31 ∧ (s.readReg b).toInt = -1) →
        (s.readReg a).toInt = (t.readReg d).toInt * (s.readReg b).toInt + t.rem.toInt) ∧
      |t.rem.toInt| < |(s.readReg b).toInt| ∧
      (0 < t.rem.toInt → 0 < (s.readReg a).toInt) ∧ (t.rem.toInt < 0 → (s.readReg a).toInt < 0)

/-- The truth table of the six comparisons, in the order EQ, NEQ, GT, GTE, LT, LTE, for each ordering of the signed
values: the table that R97 marks as derived from R91 to R96. -/
def Obligations.ComparisonTruthTable : Prop :=
  ∀ (s : State) (a b : Fin 32) (row : List Bool),
    ((s.readReg a).toInt < (s.readReg b).toInt ∧ row = [false, true, false, false, true, true]) ∨
    ((s.readReg a).toInt = (s.readReg b).toInt ∧ row = [true, false, false, true, false, true]) ∨
    ((s.readReg a).toInt > (s.readReg b).toInt ∧ row = [false, true, true, true, false, false]) →
    [Instr.eq (BitVec.ofNat 8 a.val) (BitVec.ofNat 8 b.val), .neq (BitVec.ofNat 8 a.val) (BitVec.ofNat 8 b.val),
      .gt (BitVec.ofNat 8 a.val) (BitVec.ofNat 8 b.val), .gte (BitVec.ofNat 8 a.val) (BitVec.ofNat 8 b.val),
      .lt (BitVec.ofNat 8 a.val) (BitVec.ofNat 8 b.val), .lte (BitVec.ofNat 8 a.val) (BitVec.ofNat 8 b.val)].map
        (fun i => exec i s) =
      row.map fun v => .next (s.writeFlag v)

/-! ## Faults -/

/-- R126, R120: what `raise` does: the two fault registers, the status, and nothing else; the block stops fetching. -/
def Obligations.RaiseIsFaultEntry : Prop :=
  FaultCause.invalidOpcode.code = 1 ∧ FaultCause.imageOutOfBounds.code = 2 ∧
  FaultCause.registerIndex.code = 3 ∧ FaultCause.divideByZero.code = 4 ∧
  ∀ (s : State) (c : FaultCause),
    s.raise c = { s with faulted := true, faultCause := c.code } ∧
    (s.raise c).status = .faulted ∧ (s.raise c).status ≠ .halted ∧ step (s.raise c) = .next (s.raise c)

/-- R122: a fetch at or past `L` raises and leaves `pc`; in the Halted status that is the opcode fetch; in the Running
status an out-of-range fetch is of an operand byte at address exactly `L`. -/
def Obligations.OutOfBoundsFetch : Prop :=
  (∀ s : State, s.len.val ≤ s.pc.toNat → s.fetch = .raised (s.raise .imageOutOfBounds)) ∧
  (∀ s : State, s.status = .halted → step s = .next (s.raise .imageOutOfBounds)) ∧
  (∀ s t : State, s.status = .running → step s = .next t → t.faulted = true → t.faultCause = 2 →
    t.pc.toNat = s.len.val ∧ s.pc.toNat < t.pc.toNat)

/-- R123: an instruction of the image that names a register of 32 or more raises `RegisterIndex` after all its bytes are
fetched and before anything is written; the offending byte is one of its operand bytes. -/
def Obligations.RegisterIndexFault : Prop :=
  ∀ (s : State) (i : Instr) (rest : List Byte), s.faulted = false →
    decode (s.bytesAt s.pc 4) = .ok (i, rest) → (∃ b ∈ i.regBytes, 32 ≤ b.toNat) →
    step s = .next ((s.writePc (s.pc + BitVec.ofNat 32 i.length)).raise .registerIndex) ∧
    ∃ (k : Nat) (b : Byte), 1 ≤ k ∧ k < i.length ∧ s.memRead (s.pc + BitVec.ofNat 32 k) = some b ∧ 32 ≤ b.toNat

/-- R125: the first failing check of a cycle decides its fault: opcode fetch, decode, operand fetches, register indices,
zero divisor; a cycle whose checks all pass does not fault; a faulting cycle writes nothing and is the last. -/
def Obligations.FirstFailingCheckDecides : Prop :=
  ∀ s : State, s.faulted = false → ∃ t, step s = .next t ∧
    (s.memRead s.pc = none → t.faulted = true ∧ t.faultCause = 2) ∧
    (∀ b, s.memRead s.pc = some b →
      (rowOfByte b = none → t.faulted = true ∧ t.faultCause = 1) ∧
      (∀ row, rowOfByte b = some row →
        ((∃ k, k < row.format.arity ∧ s.memRead (s.pc + 1 + BitVec.ofNat 32 k) = none) →
          t.faulted = true ∧ t.faultCause = 2) ∧
        ((∀ k, k < row.format.arity → s.memRead (s.pc + 1 + BitVec.ofNat 32 k) ≠ none) →
          ∃ i rest, decode (s.bytesAt s.pc 4) = .ok (i, rest) ∧ i.opcode = row.opcode ∧
            (i.wellFormed = false → t.faulted = true ∧ t.faultCause = 3) ∧
            (i.wellFormed = true →
              ((∃ x y z j, i = .mod x y z ∧ regIndex y = some j ∧ s.readReg j = 0) →
                t.faulted = true ∧ t.faultCause = 4) ∧
              ((¬∃ x y z j, i = .mod x y z ∧ regIndex y = some j ∧ s.readReg j = 0) → t.faulted = false))))) ∧
    (t.faulted = true →
      t.regs = s.regs ∧ t.rem = s.rem ∧ t.flag = s.flag ∧ step t = .next t)

/-- The state a faulting cycle leaves, after R127 and its inference "Faults are precise in this sense": no register,
`rem` or `flag` written, and `pc` where the completed fetches put it, case by case; nothing but `Reset` resumes the
block. -/
def Obligations.FaultingCycleLeaves : Prop :=
  ∀ s t : State, s.faulted = false → step s = .next t → t.faulted = true →
    (∀ r, t.readReg r = s.readReg r) ∧ t.rem = s.rem ∧ t.flag = s.flag ∧ t.len = s.len ∧
    (∀ k, t.memRead k = s.memRead k) ∧ step t = .next t ∧ (∀ op, op ≠ .reset → (hostOp op t).1 = t) ∧
    ((t.faultCause = 2 ∧ s.len.val ≤ s.pc.toNat ∧ t.pc = s.pc) ∨
     (t.faultCause = 1 ∧ (∃ b, s.memRead s.pc = some b ∧ rowOfByte b = none) ∧ t.pc = s.pc + 1) ∨
     (∃ b row n, s.memRead s.pc = some b ∧ rowOfByte b = some row ∧ n < row.format.arity ∧
       (∀ j, j < n → s.memRead (s.pc + 1 + BitVec.ofNat 32 j) ≠ none) ∧ s.memRead t.pc = none ∧
       t.faultCause = 2 ∧ t.pc = s.pc + 1 + BitVec.ofNat 32 n ∧ t.pc.toNat = s.len.val) ∨
     (∃ b row, s.memRead s.pc = some b ∧ rowOfByte b = some row ∧
       t.faultCause = 3 ∧ t.pc = s.pc + 1 + BitVec.ofNat 32 row.format.arity) ∨
     (s.memRead s.pc = some 0x04 ∧ t.faultCause = 4 ∧ t.pc = s.pc + 4))

/-- R129: Faulted is sticky: every host operation but `Reset` leaves a faulted block as it is, `SetPC` is refused, reads
answer as always, and `Reset` clears both fault registers. -/
def Obligations.FaultedIsSticky : Prop :=
  ∀ s : State, s.faulted = true →
    step s = .next s ∧ (∀ fuel, s.runFor fuel = s) ∧
    (∀ op, op ≠ .reset → (hostOp op s).1 = s) ∧
    (∀ v, (hostOp (.setPC v) s).2 = .refused .setPCWhileFaulted) ∧
    (∀ (i : Nat) (h : i < 32), (hostOp (.readReg i) s).2 = .reg (s.readReg ⟨i, h⟩)) ∧
    (hostOp .readAllRegs s).2 = .regs s.regs ∧
    (hostOp .readState s).2 = .rest s.pc s.rem s.flag .faulted s.faultCause ∧
    (hostOp .reset s).1.faulted = false ∧ (hostOp .reset s).1.faultCause = 0

/-! ## The whole machine -/

/-- Every step keeps the invariant: `faulted` and `fault_cause` agree, the codes 5 to 7 never occur (R20), and the image
stays in canonical form inside its length (the model's choice, log entry 2). -/
def Obligations.StepKeepsInv : Prop :=
  ∀ s t : State, s.Inv → step s = .next t → t.Inv

/-- Every host operation keeps the invariant, a `Run` of any number of cycles among them. -/
def Obligations.HostOperationsKeepInv : Prop :=
  ∀ (op : HostOp) (s : State), s.Inv → (hostOp op s).1.Inv

/-- The state after reset, with the empty image of log entry 3, meets the invariant. -/
def Obligations.ResetMeetsInv : Prop :=
  State.reset.Inv

/-- R32: the Program Image is read-only: no step and no host operation changes one of its bytes or its length. -/
def Obligations.ImageIsReadOnly : Prop :=
  (∀ s t : State, step s = .next t → t.imem = s.imem ∧ t.len = s.len ∧ ∀ k, t.memRead k = s.memRead k) ∧
  (∀ (op : HostOp) (s : State), (hostOp op s).1.imem = s.imem ∧ (hostOp op s).1.len = s.len ∧
    ∀ k, (hostOp op s).1.memRead k = s.memRead k)

/-- Every state has a next state: every byte string is a legal image with a defined run, and no instruction is refused. -/
def Obligations.EveryStepAnswersNextState : Prop :=
  ∀ s : State, ∃ t, step s = .next t

/-- When the bytes at `pc` decode to an instruction, a step is that instruction performed with `pc` moved past its bytes
(the model's split of a cycle into fetch and effect, log entry 6). -/
def Obligations.StepRunsDecodedInstruction : Prop :=
  ∀ (s : State) (i : Instr) (rest : List Byte), s.faulted = false →
    decode (s.bytesAt s.pc 4) = .ok (i, rest) →
    step s = exec i (s.writePc (s.pc + BitVec.ofNat 32 i.length))

/-- The table of R15: where `pc` is after a cycle that completes without a fault. -/
def Obligations.PcAfterCompletedCycle : Prop :=
  ∀ s t : State, s.faulted = false → step s = .next t → t.faulted = false →
    ∃ i rest, decode (s.bytesAt s.pc 4) = .ok (i, rest) ∧
      (i.opcode ∈ [Opcode.hlt, .nop] → t.pc = s.pc + 1) ∧
      (i.opcode ∈ [Opcode.inc, .dec, .modr] → t.pc = s.pc + 2) ∧
      (i.opcode ∈ [Opcode.eq, .neq, .gt, .gte, .lt, .lte] → t.pc = s.pc + 3) ∧
      (i.opcode ∈ [Opcode.add, .sub, .mul, .mod, .load] → t.pc = s.pc + 4) ∧
      (∀ b, i = .jmp b → ∃ r, b.toNat = r.val ∧ t.pc = s.readReg r)

/-- Outside JMP, a cycle of a Running block moves `pc` forward and never past the end of the image: the inference of R16
that "`pc` never wraps around". -/
def Obligations.PcMovesForwardInsideImage : Prop :=
  ∀ s t : State, s.status = .running → s.memRead s.pc ≠ some 0x10 → step s = .next t →
    s.pc.toNat < t.pc.toNat ∧ t.pc.toNat ≤ s.len.val

/-- After R17: only a comparison changes the flag, and no instruction reads it: two states that differ in the flag alone
step to the same state or to states that differ in the flag alone. -/
def Obligations.FlagIsWrittenByComparisonsAndReadByNone : Prop :=
  (∀ s t : State, step s = .next t → t.flag ≠ s.flag →
    ∃ b, s.memRead s.pc = some b ∧ 0x07 ≤ b.toNat ∧ b.toNat ≤ 0x0C) ∧
  (∀ (s t : State) (v : Bool), step s = .next t →
    step (s.writeFlag v) = .next t ∨ step (s.writeFlag v) = .next (t.writeFlag v))

/-- After R18: only a MOD that completes changes `rem`, and only MODR reads it: at any other byte, two states that differ
in `rem` alone step to the same state or to states that differ in `rem` alone. -/
def Obligations.RemIsWrittenByModAndReadByModr : Prop :=
  (∀ s t : State, step s = .next t → t.rem ≠ s.rem → s.memRead s.pc = some 0x04 ∧ t.faulted = false) ∧
  (∀ (s t : State) (v : Word), s.memRead s.pc ≠ some 0x11 → step s = .next t →
    step (s.writeRem v) = .next t ∨ step (s.writeRem v) = .next (t.writeRem v))

/-- After R12: a step changes at most the destination register of the instruction at `pc`. -/
def Obligations.OnlyTheDestinationRegisterChanges : Prop :=
  ∀ (s t : State) (r : Fin 32), step s = .next t → t.readReg r ≠ s.readReg r →
    ∃ i rest, decode (s.bytesAt s.pc 4) = .ok (i, rest) ∧
      ((i.opcode ∈ [Opcode.add, .sub, .mul, .mod] ∧ i.operands[2]? = some (BitVec.ofNat 8 r.val)) ∨
       (i.opcode ∈ [Opcode.inc, .dec, .load, .modr] ∧ i.operands[0]? = some (BitVec.ofNat 8 r.val)))

/-! ## Reset and the host -/

/-- R150: `Reset` in any status, the image and its length kept; it is the only way out of Faulted. -/
def Obligations.ResetOperation : Prop :=
  (∀ s : State,
    (hostOp .reset s).1.pc = 0 ∧ (∀ r, (hostOp .reset s).1.readReg r = 0) ∧ (hostOp .reset s).1.rem = 0 ∧
    (hostOp .reset s).1.flag = false ∧ (hostOp .reset s).1.faulted = false ∧ (hostOp .reset s).1.faultCause = 0 ∧
    (hostOp .reset s).1.len = s.len ∧ ∀ k, (hostOp .reset s).1.memRead k = s.memRead k) ∧
  (∀ (op : HostOp) (s : State), s.faulted = true → (hostOp op s).1.faulted = false → op = .reset)

/-- The status after `Reset`, which R22 marks as derived from R20, and the entry point of R151: `pc` is 0, and in a Running
block the next fetch answers the byte at offset 0. -/
def Obligations.StatusAfterReset : Prop :=
  ∀ s : State,
    (0 < s.len.val →
      (hostOp .reset s).1.status = .running ∧ (hostOp .reset s).1.pc = 0 ∧
      ∃ b, s.memRead 0 = some b ∧ (hostOp .reset s).1.fetch = .got b ((hostOp .reset s).1.writePc 1)) ∧
    (s.len.val = 0 → (hostOp .reset s).1.status = .halted ∧ (hostOp .reset s).1.pc = 0)

/-- After R33, the read port: the byte below `L`, "out of range" at or past it, and nothing else decides the answer. -/
def Obligations.ReadPort : Prop :=
  (∀ (s : State) (k : Word), s.len.val ≤ k.toNat → s.memRead k = none) ∧
  (∀ (s : State) (k : Word), k.toNat < s.len.val → s.memRead k = some (Memory.read s.imem k.toNat)) ∧
  (∀ (s t : State) (k : Word), s.imem = t.imem → s.len = t.len → s.memRead k = t.memRead k)

/-- After R34, `Fetch()`: the byte at `pc`, then `pc + 1`, or the fault, with `pc` unchanged. That `pc + 1` does not wrap is
the inference of R16 that "`pc` never wraps around". -/
def Obligations.FetchReadsThenAdvances : Prop :=
  ∀ s : State,
    (∀ b, s.memRead s.pc = some b →
      s.fetch = .got b (s.writePc (s.pc + 1)) ∧ (s.pc + 1).toNat = s.pc.toNat + 1) ∧
    (s.memRead s.pc = none → s.fetch = .raised { s with faulted := true, faultCause := 2 })

/-- A loaded image is what the machine reads: every byte of it at its offset, its length, everything else at reset; it is
refused exactly when it is longer than 2^31 - 1 bytes. The load is the model's form of R152's first duty (log entries 2, 3
and 12). -/
def Obligations.LoadedImageIsRead : Prop :=
  (∀ bytes : List Byte, boot bytes = none ↔ 2 ^ 31 ≤ bytes.length) ∧
  (∀ (bytes : List Byte) (s : State), boot bytes = some s →
    s.Inv ∧ s.len.val = bytes.length ∧ (∀ j, (h : j < bytes.length) → s.memRead (BitVec.ofNat 32 j) = some bytes[j]) ∧
    s.pc = 0 ∧ s.regs = State.reset.regs ∧ s.rem = 0 ∧ s.flag = false ∧ s.faulted = false ∧ s.faultCause = 0)

/-- R155: `Run` tests before every cycle: it does nothing to a Halted or Faulted block, does one cycle and goes on with a
Running one, and ends Halted or Faulted; an empty image is Halted at once. -/
def Obligations.RunCyclesWhileRunning : Prop :=
  (∀ (s : State) (fuel : Nat), s.status ≠ .running → s.runFor fuel = s) ∧
  (∀ (s t : State) (fuel : Nat), s.status = .running → cycle s = .next t → s.runFor (fuel + 1) = t.runFor fuel) ∧
  (∀ s t : State, s.RunEnds t → (t.faulted = false ∧ s.len.val ≤ t.pc.toNat) ∨ t.faulted = true) ∧
  (∀ s : State, boot [] = some s → s.RunEnds s ∧ s.status = .halted)

/-- After R157: the end of a run does not depend on the fuel: it is one state, and it is the first moment at which the
block is not Running. -/
def Obligations.RunEndIsUnique : Prop :=
  (∀ s t u : State, s.RunEnds t → s.RunEnds u → t = u) ∧
  (∀ s t : State, s.RunEnds t → ∃ n, s.runFor n = t ∧ ∀ k, k < n → (s.runFor k).status = .running)

/-- `Step`s issued while the block is Running are the same execution as `Run`: the inference R160 marks as derived from
R154 and R155. -/
def Obligations.StepsWhileRunningAreRun : Prop :=
  ∀ (n : Nat) (s : State), (∀ k, k < n → (s.runFor k).status = .running) →
    Host.Core.run Sys2Proof.core n s = .next (s.runFor n)

/-- A run that ends normally was never in the Faulted status on the way. -/
def Obligations.NormalEndMeansNoFaultOnTheWay : Prop :=
  ∀ s t : State, s.RunEnds t → t.NormalEnd → ∀ k, (s.runFor k).faulted = false

/-- R154: `Step`: nothing on a faulted block, else exactly one cycle; on a Halted block that cycle raises
`ImageOutOfBounds` with `pc` unchanged. -/
def Obligations.StepOperation : Prop :=
  (∀ s : State, s.faulted = true → step s = .next s) ∧
  (∀ s : State, s.faulted = false → step s = cycle s) ∧
  (∀ s : State, s.status = .halted → step s = .next { s with faulted := true, faultCause := 2 })

/-- R159: `SetPC`: any value, `pc` only, refused without a change on a faulted block; it moves the block between Halted
and Running. A general register, `rem` or `flag` changes only by `Reset` or by a cycle that `Step` or `Run` makes. -/
def Obligations.SetPcOperation : Prop :=
  ∀ (s : State) (v : Word),
    (s.faulted = true → hostOp (.setPC v) s = (s, .refused .setPCWhileFaulted)) ∧
    (s.faulted = false → hostOp (.setPC v) s = ({ s with pc := v }, .done) ∧
      (v.toNat < s.len.val → (hostOp (.setPC v) s).1.status = .running) ∧
      (s.len.val ≤ v.toNat → (hostOp (.setPC v) s).1.status = .halted)) ∧
    (∀ op, (hostOp op s).1.regs ≠ s.regs ∨ (hostOp op s).1.rem ≠ s.rem ∨ (hostOp op s).1.flag ≠ s.flag →
      op = .reset ∨ op = .step ∨ ∃ fuel, op = .run fuel)

/-- R158: host reads change nothing and answer the state; `ReadReg(i)` with `i >= 32` is refused. -/
def Obligations.HostReads : Prop :=
  ∀ s : State,
    (∀ (i : Nat) (h : i < 32), hostOp (.readReg i) s = (s, .reg (s.readReg ⟨i, h⟩))) ∧
    (∀ i : Nat, 32 ≤ i → hostOp (.readReg i) s = (s, .refused .readRegIndex)) ∧
    hostOp .readAllRegs s = (s, .regs s.regs) ∧
    hostOp .readState s = (s, .rest s.pc s.rem s.flag s.status s.faultCause)

/-! ## The assembly notation -/

/-- Assembling the disassembly of any sequence of instructions gives their bytes (the printed form is the model's choice,
log entry 9). -/
def Obligations.AssemblingDisassemblyGivesTheBytes : Prop :=
  ∀ is : List Instr, assemble (is.map disassemble) = .ok (encodeAll is)

/-- Batch or nothing, after the note of R70 (its corners in log entry 9): a document in which some line fails yields the
failures of the failing lines, in order, and no bytes; a document in which none fails yields the bytes of its lines, in
order. -/
def Obligations.LexingIsBatchOrNothing : Prop :=
  ∀ (ls : List (List Char)) (failures : List AsmError) (bytes : List Byte),
    failures = (List.range ls.length).filterMap (fun n =>
      match lexLine (n + 1) (ls.getD n []) with
      | .error e => some e
      | .ok _ => none) →
    bytes = (List.range ls.length).flatMap (fun n =>
      match lexLine (n + 1) (ls.getD n []) with
      | .ok (some i) => opcodeByte i.1 :: i.2.map Token.byte
      | _ => []) →
    assemble ls = if failures = [] then .ok bytes else .error failures
end

