-- ==== Sys2Proof/Laws/Decode.lean ====
section
/-!
SUPPORT. The Instruction Table as a table: its two views are inverse to each other, and building an instruction from its
own opcode and operand bytes gives it back.
-/

namespace Sys2Proof

/-- No two rows of the table have the same number (R55). -/
theorem table_numbers_distinct : instructionTable.Pairwise fun p q => p.number ≠ q.number := by decide

/-- The rows' numbers are 1 to 17, in order (R56). -/
theorem table_numbers : instructionTable.map (fun row => row.number.toNat) = List.range' 1 17 := by decide

/-- The two views of the table agree (R60). -/
theorem rowOfByte_opcodeByte (o : Opcode) : rowOfByte (opcodeByte o) = rowOfOpcode o := by
  cases o <;> decide

/-- Every opcode has a row. -/
theorem rowOfOpcode_isSome (o : Opcode) :
    ∃ row, rowOfOpcode o = some row ∧ row.opcode = o ∧ row.number = opcodeByte o ∧ row.format = formatOf o := by
  cases o <;> exact ⟨_, rfl, rfl, rfl, rfl⟩

/-- The decoder's view of the byte of an opcode. -/
theorem rowOfByte_of_opcode (o : Opcode) :
    ∃ row, rowOfByte (opcodeByte o) = some row ∧ row.opcode = o ∧ row.format = formatOf o := by
  cases o <;> exact ⟨_, rfl, rfl, rfl⟩

/-- A byte the decoder accepts is the byte of the row's opcode. -/
theorem opcodeByte_of_row {b : Byte} {row : Row} (h : rowOfByte b = some row) :
    opcodeByte row.opcode = b ∧ row.format = formatOf row.opcode := by
  have hp := List.find?_some h
  have hm := List.mem_of_find?_eq_some h
  simp only [beq_iff_eq] at hp
  subst hp
  have key : ∀ row ∈ instructionTable, opcodeByte row.opcode = row.number ∧ row.format = formatOf row.opcode := by
    decide
  exact key row hm

/-- The number of operand bytes of an instruction is the arity of its format. -/
theorem operands_length (i : Instr) : i.operands.length = (formatOf i.opcode).arity := by
  cases i <;> rfl

/-- The operand bytes give the instruction back. -/
theorem build_operands (i : Instr) : build i.opcode i.operands = i := by
  cases i <;> rfl

/-- What is built keeps the opcode. -/
@[simp] theorem build_opcode (o : Opcode) (ops : List Byte) : (build o ops).opcode = o := by
  cases o <;> rfl

/-- What is built from the right number of bytes has exactly those operand bytes. -/
theorem build_operands_eq {o : Opcode} {ops : List Byte} (h : ops.length = (formatOf o).arity) :
    (build o ops).operands = ops := by
  cases o <;> first
    | (obtain ⟨a, b, c, rfl⟩ := List.length_eq_three.mp h; rfl)
    | (obtain ⟨a, b, rfl⟩ := List.length_eq_two.mp h; rfl)
    | (obtain ⟨a, rfl⟩ := List.length_eq_one_iff.mp h; rfl)
    | (obtain rfl := List.length_eq_zero_iff.mp h; rfl)

/-- What the decoder can answer on a non-empty sequence. -/
theorem decode_cons_cases (b : Byte) (rest : List Byte) :
    (rowOfByte b = none ∧ decode (b :: rest) = .error (.invalidOpcode b)) ∨
    (∃ row, rowOfByte b = some row ∧ rest.length < row.format.arity ∧
      decode (b :: rest) = .error (.missingOperand rest.length)) ∨
    (∃ row, rowOfByte b = some row ∧ row.format.arity ≤ rest.length ∧
      decode (b :: rest) =
        .ok (build row.opcode (rest.take row.format.arity), rest.drop row.format.arity)) := by
  cases hr : rowOfByte b with
  | none => exact .inl ⟨rfl, by simp only [decode, hr]⟩
  | some row =>
    by_cases hl : rest.length < row.format.arity
    · exact .inr (.inl ⟨row, rfl, hl, by simp only [decode, hr, if_pos hl]⟩)
    · exact .inr (.inr ⟨row, rfl, by omega, by simp only [decode, hr, if_neg hl]⟩)

end Sys2Proof
end

