-- ==== Sys2Proof/Laws/State.lean ====
section
/-!
SUPPORT. The small lemmas of the state: what each update does to each field, to a register read and to an image read. With
these no later proof unfolds a record update.
-/

namespace Sys2Proof.Machine

/-! ## `writeReg` -/

@[simp] theorem State.writeReg_pc (s : State) (i : Fin Config.nreg) (v : Word) :
    (s.writeReg i v).pc = s.pc := rfl

@[simp] theorem State.writeReg_regs (s : State) (i : Fin Config.nreg) (v : Word) :
    (s.writeReg i v).regs = s.regs.set i v := rfl

@[simp] theorem State.writeReg_rem (s : State) (i : Fin Config.nreg) (v : Word) :
    (s.writeReg i v).rem = s.rem := rfl

@[simp] theorem State.writeReg_flag (s : State) (i : Fin Config.nreg) (v : Word) :
    (s.writeReg i v).flag = s.flag := rfl

@[simp] theorem State.writeReg_faulted (s : State) (i : Fin Config.nreg) (v : Word) :
    (s.writeReg i v).faulted = s.faulted := rfl

@[simp] theorem State.writeReg_faultCause (s : State) (i : Fin Config.nreg) (v : Word) :
    (s.writeReg i v).faultCause = s.faultCause := rfl

@[simp] theorem State.writeReg_imem (s : State) (i : Fin Config.nreg) (v : Word) :
    (s.writeReg i v).imem = s.imem := rfl

@[simp] theorem State.writeReg_len (s : State) (i : Fin Config.nreg) (v : Word) :
    (s.writeReg i v).len = s.len := rfl

@[simp] theorem State.writeReg_memRead (s : State) (i : Fin Config.nreg) (v : Word) (k : Word) :
    (s.writeReg i v).memRead k = s.memRead k := rfl

/-! ## `writePc` -/

@[simp] theorem State.writePc_pc (s : State) (v : Word) :
    (s.writePc v).pc = v := rfl

@[simp] theorem State.writePc_regs (s : State) (v : Word) :
    (s.writePc v).regs = s.regs := rfl

@[simp] theorem State.writePc_rem (s : State) (v : Word) :
    (s.writePc v).rem = s.rem := rfl

@[simp] theorem State.writePc_flag (s : State) (v : Word) :
    (s.writePc v).flag = s.flag := rfl

@[simp] theorem State.writePc_faulted (s : State) (v : Word) :
    (s.writePc v).faulted = s.faulted := rfl

@[simp] theorem State.writePc_faultCause (s : State) (v : Word) :
    (s.writePc v).faultCause = s.faultCause := rfl

@[simp] theorem State.writePc_imem (s : State) (v : Word) :
    (s.writePc v).imem = s.imem := rfl

@[simp] theorem State.writePc_len (s : State) (v : Word) :
    (s.writePc v).len = s.len := rfl

@[simp] theorem State.writePc_memRead (s : State) (v : Word) (k : Word) :
    (s.writePc v).memRead k = s.memRead k := rfl

@[simp] theorem State.writePc_readReg (s : State) (v : Word) (r : Fin Config.nreg) :
    (s.writePc v).readReg r = s.readReg r := rfl

/-! ## `writeRem` -/

@[simp] theorem State.writeRem_pc (s : State) (v : Word) :
    (s.writeRem v).pc = s.pc := rfl

@[simp] theorem State.writeRem_regs (s : State) (v : Word) :
    (s.writeRem v).regs = s.regs := rfl

@[simp] theorem State.writeRem_rem (s : State) (v : Word) :
    (s.writeRem v).rem = v := rfl

@[simp] theorem State.writeRem_flag (s : State) (v : Word) :
    (s.writeRem v).flag = s.flag := rfl

@[simp] theorem State.writeRem_faulted (s : State) (v : Word) :
    (s.writeRem v).faulted = s.faulted := rfl

@[simp] theorem State.writeRem_faultCause (s : State) (v : Word) :
    (s.writeRem v).faultCause = s.faultCause := rfl

@[simp] theorem State.writeRem_imem (s : State) (v : Word) :
    (s.writeRem v).imem = s.imem := rfl

@[simp] theorem State.writeRem_len (s : State) (v : Word) :
    (s.writeRem v).len = s.len := rfl

@[simp] theorem State.writeRem_memRead (s : State) (v : Word) (k : Word) :
    (s.writeRem v).memRead k = s.memRead k := rfl

@[simp] theorem State.writeRem_readReg (s : State) (v : Word) (r : Fin Config.nreg) :
    (s.writeRem v).readReg r = s.readReg r := rfl

/-! ## `writeFlag` -/

@[simp] theorem State.writeFlag_pc (s : State) (b : Bool) :
    (s.writeFlag b).pc = s.pc := rfl

@[simp] theorem State.writeFlag_regs (s : State) (b : Bool) :
    (s.writeFlag b).regs = s.regs := rfl

@[simp] theorem State.writeFlag_rem (s : State) (b : Bool) :
    (s.writeFlag b).rem = s.rem := rfl

@[simp] theorem State.writeFlag_flag (s : State) (b : Bool) :
    (s.writeFlag b).flag = b := rfl

@[simp] theorem State.writeFlag_faulted (s : State) (b : Bool) :
    (s.writeFlag b).faulted = s.faulted := rfl

@[simp] theorem State.writeFlag_faultCause (s : State) (b : Bool) :
    (s.writeFlag b).faultCause = s.faultCause := rfl

@[simp] theorem State.writeFlag_imem (s : State) (b : Bool) :
    (s.writeFlag b).imem = s.imem := rfl

@[simp] theorem State.writeFlag_len (s : State) (b : Bool) :
    (s.writeFlag b).len = s.len := rfl

@[simp] theorem State.writeFlag_memRead (s : State) (b : Bool) (k : Word) :
    (s.writeFlag b).memRead k = s.memRead k := rfl

@[simp] theorem State.writeFlag_readReg (s : State) (b : Bool) (r : Fin Config.nreg) :
    (s.writeFlag b).readReg r = s.readReg r := rfl

/-! ## `raise` -/

@[simp] theorem State.raise_pc (s : State) (c : FaultCause) :
    (s.raise c).pc = s.pc := rfl

@[simp] theorem State.raise_regs (s : State) (c : FaultCause) :
    (s.raise c).regs = s.regs := rfl

@[simp] theorem State.raise_rem (s : State) (c : FaultCause) :
    (s.raise c).rem = s.rem := rfl

@[simp] theorem State.raise_flag (s : State) (c : FaultCause) :
    (s.raise c).flag = s.flag := rfl

@[simp] theorem State.raise_faulted (s : State) (c : FaultCause) :
    (s.raise c).faulted = true := rfl

@[simp] theorem State.raise_faultCause (s : State) (c : FaultCause) :
    (s.raise c).faultCause = c.code := rfl

@[simp] theorem State.raise_imem (s : State) (c : FaultCause) :
    (s.raise c).imem = s.imem := rfl

@[simp] theorem State.raise_len (s : State) (c : FaultCause) :
    (s.raise c).len = s.len := rfl

@[simp] theorem State.raise_memRead (s : State) (c : FaultCause) (k : Word) :
    (s.raise c).memRead k = s.memRead k := rfl

@[simp] theorem State.raise_readReg (s : State) (c : FaultCause) (r : Fin Config.nreg) :
    (s.raise c).readReg r = s.readReg r := rfl

/-! ## Register reads after a register write -/

@[simp] theorem State.readReg_writeReg_same (s : State) (i : Fin Config.nreg) (v : Word) :
    (s.writeReg i v).readReg i = v := by
  simp [State.readReg, State.writeReg]

theorem State.readReg_writeReg_ne (s : State) {i r : Fin Config.nreg} (v : Word) (h : r ≠ i) :
    (s.writeReg i v).readReg r = s.readReg r := by
  have hv : (i : Nat) ≠ r := fun e => h (Fin.ext e.symm)
  simp [State.readReg, State.writeReg, Vector.getElem_set_ne, hv]

/-! ## Writes that undo each other -/

@[simp] theorem State.writePc_writePc (s : State) (v w : Word) : (s.writePc v).writePc w = s.writePc w := rfl

@[simp] theorem State.writePc_self (s : State) : s.writePc s.pc = s := rfl

end Sys2Proof.Machine
end

