-- ==== Sys2Proof/Laws/Memory.lean ====
section
/-!
SUPPORT. The Program Image as data: reads after writes, and the canonical form that every write keeps.
-/

namespace Sys2Proof.Machine

/-! ## Reads after writes -/

/-- A memory whose addresses start above `k` holds nothing at `k`. -/
theorem Memory.read_below {m : Memory} {lo k : Nat} (hw : Memory.wfFrom lo m = true) (hk : k < lo) :
    Memory.read m k = unlistedByte := by
  induction m generalizing lo with
  | nil => rfl
  | cons cell m ih =>
    obtain ⟨a, b⟩ := cell
    simp only [Memory.wfFrom, Bool.and_eq_true, decide_eq_true_eq] at hw
    have hne : a ≠ k := by omega
    simp only [Memory.read, if_neg hne]
    exact ih hw.2 (by omega)

/-- Reading the byte just put in place. -/
theorem Memory.read_write_same {m : Memory} {lo : Nat} (k : Nat) (v : Byte) (hw : Memory.wfFrom lo m = true) :
    Memory.read (Memory.write m k v) k = v := by
  induction m generalizing lo with
  | nil => by_cases hv : v = unlistedByte <;> simp [Memory.write, Memory.read, hv]
  | cons cell m ih =>
    obtain ⟨a, b⟩ := cell
    simp only [Memory.wfFrom, Bool.and_eq_true, decide_eq_true_eq] at hw
    by_cases h1 : k < a
    · by_cases hv : v = unlistedByte
      · have hne : a ≠ k := by omega
        simp [Memory.write, h1, hv, Memory.read, hne, Memory.read_below hw.2 (by omega : k < a + 1)]
      · simp [Memory.write, h1, hv, Memory.read]
    · by_cases h2 : k = a
      · subst h2
        by_cases hv : v = unlistedByte
        · simp [Memory.write, hv, Memory.read_below hw.2 (Nat.lt_succ_self k)]
        · simp [Memory.write, hv, Memory.read]
      · have hne : a ≠ k := fun e => h2 e.symm
        simp [Memory.write, h1, h2, Memory.read, hne, ih hw.2]

/-- A write leaves every other address alone. -/
theorem Memory.read_write_ne (m : Memory) {k j : Nat} (v : Byte) (h : j ≠ k) :
    Memory.read (Memory.write m k v) j = Memory.read m j := by
  induction m with
  | nil => by_cases hv : v = unlistedByte <;> simp [Memory.write, Memory.read, hv, Ne.symm h]
  | cons cell m ih =>
    obtain ⟨a, b⟩ := cell
    by_cases h1 : k < a
    · by_cases hv : v = unlistedByte <;> simp [Memory.write, h1, hv, Memory.read, Ne.symm h]
    · by_cases h2 : k = a
      · subst h2
        by_cases hv : v = unlistedByte <;> simp [Memory.write, hv, Memory.read, Ne.symm h]
      · simp only [Memory.write, if_neg h1, if_neg h2, Memory.read, ih]

/-! ## The canonical form -/

theorem Memory.wfFrom_mono {m : Memory} {lo lo' : Nat} (hw : Memory.wfFrom lo m = true) (h : lo' ≤ lo) :
    Memory.wfFrom lo' m = true := by
  cases m with
  | nil => rfl
  | cons cell m =>
    obtain ⟨a, b⟩ := cell
    simp only [Memory.wfFrom, Bool.and_eq_true, decide_eq_true_eq] at hw ⊢
    exact ⟨⟨by omega, hw.1.2⟩, hw.2⟩

theorem Memory.wfFrom_write {m : Memory} {lo k : Nat} (v : Byte) (hw : Memory.wfFrom lo m = true) (hk : lo ≤ k) :
    Memory.wfFrom lo (Memory.write m k v) = true := by
  induction m generalizing lo with
  | nil => by_cases hv : v = unlistedByte <;> simp [Memory.write, Memory.wfFrom, hv, hk]
  | cons cell m ih =>
    obtain ⟨a, b⟩ := cell
    have hw' := hw
    simp only [Memory.wfFrom, Bool.and_eq_true, decide_eq_true_eq] at hw
    by_cases h1 : k < a
    · by_cases hv : v = unlistedByte
      · simpa [Memory.write, h1, hv] using hw'
      · have hlt : k + 1 ≤ a := h1
        simp [Memory.write, h1, hv, Memory.wfFrom, hk, hlt, hw.1.2, hw.2]
    · by_cases h2 : k = a
      · subst h2
        by_cases hv : v = unlistedByte
        · simpa [Memory.write, hv] using Memory.wfFrom_mono hw.2 (by omega : lo ≤ k + 1)
        · simp [Memory.write, hv, Memory.wfFrom, hk, hw.2]
      · have hlt : a + 1 ≤ k := by omega
        simp [Memory.write, h1, h2, Memory.wfFrom, hw.1.1, hw.1.2, ih hw.2 hlt]

/-- Putting a byte in place keeps the canonical form. -/
theorem Memory.wf_write {m : Memory} (k : Nat) (v : Byte) (hw : Memory.wf m = true) :
    Memory.wf (Memory.write m k v) = true :=
  Memory.wfFrom_write v hw (Nat.zero_le k)

/-- Putting bytes in place keeps the canonical form. -/
theorem Memory.wf_place {m : Memory} (k : Nat) (bytes : List Byte) (hw : Memory.wf m = true) :
    Memory.wf (Memory.place m k bytes) = true := by
  induction bytes generalizing m k with
  | nil => exact hw
  | cons b bs ih => exact ih (k + 1) (Memory.wf_write k b hw)

/-- The machine's memory after reset is canonical. -/
theorem reset_memory_wf : Memory.wf State.reset.imem = true := rfl

/-- Placing bytes leaves every address before them alone. -/
theorem Memory.read_place_below (m : Memory) {k j : Nat} (bytes : List Byte) (h : j < k) :
    Memory.read (Memory.place m k bytes) j = Memory.read m j := by
  induction bytes generalizing m k with
  | nil => rfl
  | cons b bs ih =>
    rw [Memory.place, ih _ (by omega), Memory.read_write_ne _ _ (by omega)]

/-- Reading one of the bytes put in place. -/
theorem Memory.read_place {m : Memory} {k j : Nat} {bytes : List Byte} (hw : Memory.wf m = true)
    (hj : j < bytes.length) : Memory.read (Memory.place m k bytes) (k + j) = bytes[j] := by
  induction bytes generalizing m k j with
  | nil => simp at hj
  | cons b bs ih =>
    cases j with
    | zero =>
      rw [Memory.place, Memory.read_place_below _ _ (by omega : k + 0 < k + 1)]
      simpa using Memory.read_write_same k b hw
    | succ j =>
      have hj' : j < bs.length := by simpa using hj
      have := ih (m := Memory.write m k b) (k := k + 1) (Memory.wf_write k b hw) hj'
      rw [Memory.place, show k + (j + 1) = k + 1 + j by omega, this]
      simp

/-- An address is listed after a write only if it was listed before or is the one written. -/
theorem Memory.mem_write {m : Memory} {k : Nat} {v : Byte} {cell : Host.Cell} (h : cell ∈ Memory.write m k v) :
    cell ∈ m ∨ cell.1 = k := by
  induction m with
  | nil => by_cases hv : v = unlistedByte <;> simp_all [Memory.write]
  | cons c m ih =>
    obtain ⟨a, b⟩ := c
    by_cases h1 : k < a
    · by_cases hv : v = unlistedByte
      · simp only [Memory.write, if_pos h1, if_pos hv] at h
        exact .inl h
      · simp only [Memory.write, if_pos h1, if_neg hv, List.mem_cons] at h
        obtain rfl | h := h
        · exact .inr rfl
        · exact .inl (by simpa using h)
    · by_cases h2 : k = a
      · by_cases hv : v = unlistedByte
        · simp only [Memory.write, if_neg h1, if_pos h2, if_pos hv] at h
          exact .inl (List.mem_cons_of_mem _ h)
        · simp only [Memory.write, if_neg h1, if_pos h2, if_neg hv, List.mem_cons] at h
          obtain rfl | h := h
          · exact .inr h2.symm
          · exact .inl (List.mem_cons_of_mem _ h)
      · simp only [Memory.write, if_neg h1, if_neg h2, List.mem_cons] at h
        obtain rfl | h := h
        · exact .inl (by simp)
        · exact (ih h).imp_left (List.mem_cons_of_mem _)

/-- An address is listed after bytes are put in place only if it was listed before or lies among them. -/
theorem Memory.mem_place {m : Memory} {k : Nat} {bytes : List Byte} {cell : Host.Cell}
    (h : cell ∈ Memory.place m k bytes) : cell ∈ m ∨ (k ≤ cell.1 ∧ cell.1 < k + bytes.length) := by
  induction bytes generalizing m k with
  | nil => exact .inl h
  | cons b bs ih =>
    obtain h | h := ih h
    · obtain h | h := Memory.mem_write h
      · exact .inl h
      · exact .inr (by simp; omega)
    · exact .inr (by simp; omega)

/-! ## The read port -/

theorem State.memRead_eq_none {s : State} {a : Word} : s.memRead a = none ↔ s.len.val ≤ a.toNat := by
  simp only [State.memRead]
  split <;> simp <;> omega

theorem State.memRead_eq_some {s : State} {a : Word} {b : Byte} :
    s.memRead a = some b ↔ a.toNat < s.len.val ∧ Memory.read s.imem a.toNat = b := by
  simp only [State.memRead]
  split <;> simp <;> omega

/-- A byte that can be read stands below `L`, so the next address is one more, without wrapping (R16). -/
theorem State.toNat_succ_of_memRead {s : State} {a : Word} {b : Byte} (h : s.memRead a = some b) :
    (a + 1).toNat = a.toNat + 1 := by
  have ha := (State.memRead_eq_some.mp h).1
  have hl : s.len.val < 2147483648 := s.len.isLt
  rw [BitVec.toNat_add]
  simp
  omega

/-- Placing bytes keeps everything but the image and its length. -/
theorem State.placeBytes_cases (s : State) (addr : Nat) (bytes : List Byte) :
    (∃ h : max s.len.val (addr + bytes.length) < Config.imageBound,
      s.placeBytes addr bytes =
        { s with imem := Memory.place s.imem addr bytes, len := ⟨max s.len.val (addr + bytes.length), h⟩ }) ∨
    (Config.imageBound ≤ max s.len.val (addr + bytes.length) ∧ s.placeBytes addr bytes = s) := by
  by_cases h : max s.len.val (addr + bytes.length) < Config.imageBound
  · exact .inl ⟨h, by simp only [State.placeBytes, dif_pos h]⟩
  · exact .inr ⟨by omega, by simp only [State.placeBytes, dif_neg h]⟩

end Sys2Proof.Machine
end

