-- ==== Sys2Proof/Laws/Fetch.lean ====
section
/-!
SUPPORT. Fetching: everything `Fetch()`, the operand fetches and the fetch of a whole instruction can do.
-/

namespace Sys2Proof.Machine

/-- `Fetch()` (R34): it reads, then advances `pc`; out of range it raises and leaves `pc`. -/
theorem State.fetch_cases (s : State) :
    (s.memRead s.pc = none ∧ s.fetch = .raised (s.raise .imageOutOfBounds)) ∨
    (∃ b, s.memRead s.pc = some b ∧ s.fetch = .got b (s.writePc (s.pc + 1))) := by
  cases h : s.memRead s.pc with
  | none => exact .inl ⟨rfl, by simp only [State.fetch, h]⟩
  | some b => exact .inr ⟨b, rfl, by simp only [State.fetch, h]⟩

theorem add_one_add_ofNat (a : Word) (j : Nat) : a + 1 + BitVec.ofNat 32 j = a + BitVec.ofNat 32 (j + 1) := by
  rw [Nat.add_comm j 1, BitVec.ofNat_add, ← BitVec.add_assoc]
  rfl

/-- The operand fetches (R34): all the bytes in address order, or the first one that is out of range, with `pc` at it. -/
theorem State.fetchBytes_cases (s : State) (n : Nat) :
    (∃ bs : List Byte, bs.length = n ∧
      (∀ j, (h : j < bs.length) → s.memRead (s.pc + BitVec.ofNat 32 j) = some bs[j]) ∧
      s.fetchBytes n = .got bs (s.writePc (s.pc + BitVec.ofNat 32 n))) ∨
    (∃ k, k < n ∧ (∀ j, j < k → s.memRead (s.pc + BitVec.ofNat 32 j) ≠ none) ∧
      s.memRead (s.pc + BitVec.ofNat 32 k) = none ∧
      s.fetchBytes n = .raised ((s.writePc (s.pc + BitVec.ofNat 32 k)).raise .imageOutOfBounds)) := by
  induction n generalizing s with
  | zero => exact .inl ⟨[], rfl, by simp, by simp [State.fetchBytes]⟩
  | succ n ih =>
    obtain ⟨hm, hf⟩ | ⟨b, hm, hf⟩ := s.fetch_cases
    · exact .inr ⟨0, by omega, by simp, by simpa using hm, by simp [State.fetchBytes, hf]⟩
    · obtain ⟨bs, hl, hb, hg⟩ | ⟨k, hk, hb, hn, hg⟩ := ih (s.writePc (s.pc + 1))
      · simp only [State.writePc_memRead, State.writePc_pc, State.writePc_writePc, add_one_add_ofNat] at hb hg
        refine .inl ⟨b :: bs, by simp [hl], ?_, by simp only [State.fetchBytes, hf, hg]⟩
        intro j hj
        cases j with
        | zero => simpa using hm
        | succ j => exact hb j (by simpa using hj)
      · simp only [State.writePc_memRead, State.writePc_pc, State.writePc_writePc, add_one_add_ofNat] at hb hn hg
        refine .inr ⟨k + 1, by omega, ?_, hn, by simp only [State.fetchBytes, hf, hg]⟩
        intro j hj
        cases j with
        | zero => simp [hm]
        | succ j => exact hb j (by omega)

/-- The fetch of a whole instruction (R125 steps 1 to 3): out of range at the opcode byte, an invalid opcode, out of range
at the first missing operand byte, or the instruction with `pc` just past it. -/
theorem State.fetchInstr_cases (s : State) :
    (s.memRead s.pc = none ∧ s.fetchInstr = .raised (s.raise .imageOutOfBounds)) ∨
    (∃ b, s.memRead s.pc = some b ∧ rowOfByte b = none ∧
      s.fetchInstr = .raised ((s.writePc (s.pc + 1)).raise .invalidOpcode)) ∨
    (∃ b row k, s.memRead s.pc = some b ∧ rowOfByte b = some row ∧ k < row.format.arity ∧
      (∀ j, j < k → s.memRead (s.pc + BitVec.ofNat 32 (j + 1)) ≠ none) ∧
      s.memRead (s.pc + BitVec.ofNat 32 (k + 1)) = none ∧
      s.fetchInstr = .raised ((s.writePc (s.pc + BitVec.ofNat 32 (k + 1))).raise .imageOutOfBounds)) ∨
    (∃ b row ops, s.memRead s.pc = some b ∧ rowOfByte b = some row ∧ ops.length = row.format.arity ∧
      (∀ j, (h : j < ops.length) → s.memRead (s.pc + BitVec.ofNat 32 (j + 1)) = some ops[j]) ∧
      s.fetchInstr =
        .got (build row.opcode ops) (s.writePc (s.pc + BitVec.ofNat 32 (row.format.arity + 1)))) := by
  obtain ⟨hm, hf⟩ | ⟨b, hm, hf⟩ := s.fetch_cases
  · exact .inl ⟨hm, by simp only [State.fetchInstr, hf]⟩
  · refine .inr ?_
    cases hr : rowOfByte b with
    | none => exact .inl ⟨b, hm, hr, by simp only [State.fetchInstr, hf, hr]⟩
    | some row =>
      refine .inr ?_
      obtain ⟨bs, hl, hb, hg⟩ | ⟨k, hk, hb, hn, hg⟩ := (s.writePc (s.pc + 1)).fetchBytes_cases row.format.arity
      · simp only [State.writePc_memRead, State.writePc_pc, State.writePc_writePc, add_one_add_ofNat] at hb hg
        exact .inr ⟨b, row, bs, hm, hr, hl, hb, by simp only [State.fetchInstr, hf, hr, hg]⟩
      · simp only [State.writePc_memRead, State.writePc_pc, State.writePc_writePc, add_one_add_ofNat] at hb hn hg
        exact .inl ⟨b, row, k, hm, hr, hk, hb, hn, by simp only [State.fetchInstr, hf, hr, hg]⟩

/-! ## The bytes a decoder sees at an address -/

theorem State.bytesAt_length_le (s : State) (a : Word) (n : Nat) : (s.bytesAt a n).length ≤ n := by
  induction n generalizing a with
  | zero => simp [State.bytesAt]
  | succ n ih =>
    simp only [State.bytesAt]
    cases s.memRead a with
    | none => simp
    | some b => simpa using ih (a + 1)

/-- Each byte seen is the image's byte there. -/
theorem State.memRead_bytesAt (s : State) (a : Word) (n j : Nat) (h : j < (s.bytesAt a n).length) :
    s.memRead (a + BitVec.ofNat 32 j) = some (s.bytesAt a n)[j] := by
  induction n generalizing a j with
  | zero => simp [State.bytesAt] at h
  | succ n ih =>
    cases hm : s.memRead a with
    | none => simp [State.bytesAt, hm] at h
    | some b =>
      have e : s.bytesAt a (n + 1) = b :: s.bytesAt (a + 1) n := by simp only [State.bytesAt, hm]
      cases j with
      | zero => simpa [e] using hm
      | succ j =>
        have hj : j < (s.bytesAt (a + 1) n).length := by simpa [e] using h
        have := ih (a + 1) j hj
        rw [add_one_add_ofNat] at this
        simpa [e] using this

/-- Where fewer bytes are seen than asked for, the next address is out of range. -/
theorem State.memRead_after_bytesAt (s : State) (a : Word) (n : Nat) (h : (s.bytesAt a n).length < n) :
    s.memRead (a + BitVec.ofNat 32 (s.bytesAt a n).length) = none := by
  induction n generalizing a with
  | zero => omega
  | succ n ih =>
    cases hm : s.memRead a with
    | none => simp [State.bytesAt, hm]
    | some b =>
      have e : s.bytesAt a (n + 1) = b :: s.bytesAt (a + 1) n := by simp only [State.bytesAt, hm]
      have hl : (s.bytesAt (a + 1) n).length < n := by simpa [e] using h
      have := ih (a + 1) hl
      rw [add_one_add_ofNat] at this
      simpa [e] using this

/-! ## The fetch of an instruction from the bytes at `pc` -/

/-- The opcode byte and all the operand bytes are there. -/
theorem State.fetchInstr_of_reads {s : State} {b : Byte} {row : Row} {ops : List Byte}
    (hb : s.memRead s.pc = some b) (hr : rowOfByte b = some row) (hl : ops.length = row.format.arity)
    (ho : ∀ j, (h : j < ops.length) → s.memRead (s.pc + BitVec.ofNat 32 (j + 1)) = some ops[j]) :
    s.fetchInstr = .got (build row.opcode ops) (s.writePc (s.pc + BitVec.ofNat 32 (row.format.arity + 1))) := by
  obtain ⟨hm, _⟩ | ⟨b', hm, hn, _⟩ | ⟨b', row', k, hm, hr', hk, _, hn, _⟩ | ⟨b', row', ops', hm, hr', hl', ho', e⟩ :=
    s.fetchInstr_cases
  · rw [hb] at hm
    cases hm
  · rw [hb] at hm
    cases hm
    rw [hr] at hn
    cases hn
  · rw [hb] at hm
    cases hm
    rw [hr] at hr'
    cases hr'
    rw [ho k (by omega)] at hn
    cases hn
  · rw [hb] at hm
    cases hm
    rw [hr] at hr'
    cases hr'
    have : ops' = ops := by
      apply List.ext_getElem (by omega)
      intro j h1 h2
      have h3 := ho' j h1
      rw [ho j h2] at h3
      exact (Option.some.inj h3).symm
    rw [e, this]

/-- Operand byte number `k` is the first that is out of range. -/
theorem State.fetchInstr_of_missing {s : State} {b : Byte} {row : Row} {k : Nat}
    (hb : s.memRead s.pc = some b) (hr : rowOfByte b = some row) (hk : k < row.format.arity)
    (ho : ∀ j, j < k → s.memRead (s.pc + BitVec.ofNat 32 (j + 1)) ≠ none)
    (hn : s.memRead (s.pc + BitVec.ofNat 32 (k + 1)) = none) :
    s.fetchInstr = .raised ((s.writePc (s.pc + BitVec.ofNat 32 (k + 1))).raise .imageOutOfBounds) := by
  obtain ⟨hm, _⟩ | ⟨b', hm, hn', _⟩ | ⟨b', row', k', hm, hr', hk', ho', hn', e⟩ |
      ⟨b', row', ops', hm, hr', hl', ho', e⟩ := s.fetchInstr_cases
  · rw [hb] at hm
    cases hm
  · rw [hb] at hm
    cases hm
    rw [hr] at hn'
    cases hn'
  · have hkk : k' = k := by
      by_contra hne
      rcases Nat.lt_or_gt_of_ne hne with h | h
      · exact ho k' h hn'
      · exact ho' k h hn
    rw [e, hkk]
  · rw [hb] at hm
    cases hm
    rw [hr] at hr'
    cases hr'
    rw [ho' k (by omega)] at hn
    cases hn

theorem arity_le_three (f : Format) : f.arity ≤ 3 := by
  cases f <;> decide

/-- The length of a built instruction is 1 + the arity of its row. -/
theorem length_build {b : Byte} {row : Row} (hr : rowOfByte b = some row) (ops : List Byte) :
    (build row.opcode ops).length = row.format.arity + 1 := by
  rw [Instr.length, build_opcode, Format.length, (opcodeByte_of_row hr).2, Nat.add_comm]

/-- Fetching the instruction at `pc` and decoding the image's bytes there are the same. -/
theorem State.fetchInstr_got_iff {s t : State} {i : Instr} :
    s.fetchInstr = .got i t ↔
      (∃ rest, decode (s.bytesAt s.pc 4) = .ok (i, rest)) ∧ t = s.writePc (s.pc + BitVec.ofNat 32 i.length) := by
  have hle := s.bytesAt_length_le s.pc 4
  have hget := s.memRead_bytesAt s.pc 4
  have hend := s.memRead_after_bytesAt s.pc 4
  generalize s.bytesAt s.pc 4 = B at hle hget hend
  constructor
  · intro hg
    obtain ⟨_, e⟩ | ⟨_, _, _, e⟩ | ⟨_, _, _, _, _, _, _, _, e⟩ | ⟨b, row, ops, hm, hr, hl, ho, e⟩ :=
      s.fetchInstr_cases
    all_goals rw [e] at hg
    all_goals cases hg
    have h3 := arity_le_three row.format
    have hlen : row.format.arity < B.length := by
      by_contra hlt
      have hn := hend (by omega)
      rcases Nat.eq_zero_or_pos B.length with h0 | h0
      · rw [h0] at hn
        simp only [BitVec.add_zero] at hn
        rw [hm] at hn
        cases hn
      · have := ho (B.length - 1) (by omega)
        rw [Nat.sub_add_cancel h0, hn] at this
        cases this
    match B, hlen, hget with
    | c :: B', hlen, hget =>
      simp only [List.length_cons] at hlen
      have hc : c = b := by
        have := hget 0 (by simp)
        simp only [BitVec.add_zero, hm, List.getElem_cons_zero] at this
        exact (Option.some.inj this).symm
      subst hc
      have hB : B'.take row.format.arity = ops := by
        apply List.ext_getElem (by simp; omega)
        intro j h1 h2
        have h4 := hget (j + 1) (by simp; omega)
        rw [ho j h2] at h4
        simpa using (Option.some.inj h4).symm
      refine ⟨⟨B'.drop row.format.arity, ?_⟩, by rw [length_build hr]⟩
      obtain ⟨hn, _⟩ | ⟨row', hr', hlt, _⟩ | ⟨row', hr', _, e'⟩ := decode_cons_cases c B'
      · rw [hr] at hn
        cases hn
      · rw [hr] at hr'
        cases hr'
        omega
      · rw [hr] at hr'
        cases hr'
        rw [e', hB]
  · rintro ⟨⟨rest, hd⟩, rfl⟩
    match B, hget, hd with
    | c :: B', hget, hd =>
      have hm := hget 0 (by simp)
      simp only [BitVec.add_zero, List.getElem_cons_zero] at hm
      obtain ⟨hn, e'⟩ | ⟨row, hr, hlt, e'⟩ | ⟨row, hr, hlt, e'⟩ := decode_cons_cases c B'
      · rw [e'] at hd
        cases hd
      · rw [e'] at hd
        cases hd
      · rw [e'] at hd
        cases hd
        rw [length_build hr]
        refine State.fetchInstr_of_reads hm hr (by simp; omega) ?_
        intro j h
        have h4 := hget (j + 1) (by simp at h ⊢; omega)
        rw [h4]
        simp

end Sys2Proof.Machine
end

