-- ==== Sys2Proof/Laws/Operands.lean ====
section
/-!
SUPPORT. The operand forms: one lemma for everything a form can do, and what the shared effects do to each field.
-/

namespace Sys2Proof.Machine

/-! ## Register indices -/

theorem regIndex_of_lt {b : Byte} (h : b.toNat < Config.nreg) : regIndex b = some ⟨b.toNat, h⟩ := by
  simp only [regIndex, dif_pos h]

theorem regIndex_eq_none {b : Byte} : regIndex b = none ↔ Config.nreg ≤ b.toNat := by
  by_cases h : b.toNat < Config.nreg
  · simp [regIndex_of_lt h]
    exact h
  · simp only [regIndex, dif_neg h, true_iff]
    omega

theorem regIndex_eq_some {b : Byte} {i : Fin Config.nreg} : regIndex b = some i ↔ b.toNat = i.val := by
  by_cases h : b.toNat < Config.nreg
  · simp [regIndex_of_lt h, Fin.ext_iff]
  · have := i.isLt
    simp only [regIndex, dif_neg h]
    constructor
    · intro h'
      cases h'
    · intro h'
      omega

theorem validIndex_iff {b : Byte} : validIndex b = true ↔ ∃ i, regIndex b = some i := by
  by_cases h : b.toNat < Config.nreg
  · simp [validIndex, regIndex_of_lt h, h]
  · simp [validIndex, regIndex, h]

/-! ## The forms -/

theorem withReg_cases (s : State) (r : Byte) (k : Fin Config.nreg → State) :
    (∃ i, regIndex r = some i ∧ withReg s r k = k i) ∨
    (validIndex r = false ∧ withReg s r k = s.raise .registerIndex) := by
  cases hr : regIndex r with
  | some i => exact .inl ⟨i, rfl, by simp only [withReg, hr]⟩
  | none =>
    refine .inr ⟨?_, by simp only [withReg, hr]⟩
    simpa [validIndex] using regIndex_eq_none.mp hr

theorem withRegs2_cases (s : State) (a b : Byte) (k : Fin Config.nreg → Fin Config.nreg → State) :
    (∃ i j, regIndex a = some i ∧ regIndex b = some j ∧ withRegs2 s a b k = k i j) ∨
    ((validIndex a && validIndex b) = false ∧ withRegs2 s a b k = s.raise .registerIndex) := by
  cases ha : regIndex a with
  | none =>
    refine .inr ⟨?_, by simp only [withRegs2, ha]⟩
    have := regIndex_eq_none.mp ha
    simp only [validIndex, Bool.and_eq_false_iff, decide_eq_false_iff_not]
    omega
  | some i =>
    cases hb : regIndex b with
    | none =>
      refine .inr ⟨?_, by simp only [withRegs2, ha, hb]⟩
      have := regIndex_eq_none.mp hb
      simp only [validIndex, Bool.and_eq_false_iff, decide_eq_false_iff_not]
      omega
    | some j => exact .inl ⟨i, j, rfl, rfl, by simp only [withRegs2, ha, hb]⟩

theorem withRegs3_cases (s : State) (a b d : Byte)
    (k : Fin Config.nreg → Fin Config.nreg → Fin Config.nreg → State) :
    (∃ i j l, regIndex a = some i ∧ regIndex b = some j ∧ regIndex d = some l ∧ withRegs3 s a b d k = k i j l) ∨
    ((validIndex a && validIndex b && validIndex d) = false ∧ withRegs3 s a b d k = s.raise .registerIndex) := by
  cases ha : regIndex a with
  | none =>
    refine .inr ⟨?_, by simp only [withRegs3, ha]⟩
    have := regIndex_eq_none.mp ha
    simp only [validIndex, Bool.and_eq_false_iff, decide_eq_false_iff_not]
    omega
  | some i =>
    cases hb : regIndex b with
    | none =>
      refine .inr ⟨?_, by simp only [withRegs3, ha, hb]⟩
      have := regIndex_eq_none.mp hb
      simp only [validIndex, Bool.and_eq_false_iff, decide_eq_false_iff_not]
      omega
    | some j =>
      cases hd : regIndex d with
      | none =>
        refine .inr ⟨?_, by simp only [withRegs3, ha, hb, hd]⟩
        have := regIndex_eq_none.mp hd
        simp only [validIndex, Bool.and_eq_false_iff, decide_eq_false_iff_not]
        omega
      | some l => exact .inl ⟨i, j, l, rfl, rfl, rfl, by simp only [withRegs3, ha, hb, hd]⟩

/-! ## The shared effects -/

theorem State.combine_eq (s : State) (f : Int → Int → Word) (a b d : Fin Config.nreg) :
    s.combine f a b d = s.writeReg d (f (sval (s.readReg a)) (sval (s.readReg b))) := rfl

theorem State.modify_eq (s : State) (f : Int → Word) (r : Fin Config.nreg) :
    s.modify f r = s.writeReg r (f (sval (s.readReg r))) := rfl

theorem State.compare_eq (s : State) (f : Int → Int → Bool) (a b : Fin Config.nreg) :
    s.compare f a b = s.writeFlag (f (sval (s.readReg a)) (sval (s.readReg b))) := rfl

/-- What a division can do (R84, R124). -/
theorem State.divide_cases (s : State) (a b d : Fin Config.nreg) :
    (sval (s.readReg b) = 0 ∧ s.divide a b d = s.raise .divideByZero) ∨
    (sval (s.readReg b) ≠ 0 ∧ s.divide a b d =
      (s.writeReg d (wrap32 (tdiv (sval (s.readReg a)) (sval (s.readReg b))))).writeRem
        (wrap32 (trem (sval (s.readReg a)) (sval (s.readReg b))))) := by
  by_cases h : sval (s.readReg b) = 0
  · exact .inl ⟨h, by simp only [State.divide, if_pos h]⟩
  · exact .inr ⟨h, by simp only [State.divide, if_neg h]⟩

/-- The remainder of R7 is the one that goes with the truncated quotient. -/
theorem trem_eq_tmod (n m : Int) : trem n m = Int.tmod n m := by
  have h := Int.mul_tdiv_add_tmod n m
  rw [Int.mul_comm] at h
  simp only [trem, tdiv]
  omega

end Sys2Proof.Machine
end

