-- ==== Sys2Proof/Laws/PerInstr.lean ====
section
/-!
SUPPORT. The family `EncodeShape`: the shape of every instruction's encoding, one lemma per constructor.
-/

namespace Sys2Proof.Laws.EncodeShape

/-- An encoding is the opcode byte of the table followed by the operand bytes, 1 + arity bytes in all (R50, R53 of
`spec/30_encoding.md`), and the register-index bytes stand first among the operands (R51). -/
def Statement (i : Instr) : Prop :=
  (∃ row, rowOfOpcode i.opcode = some row ∧ encode i = row.number :: i.operands) ∧
    (encode i).length = i.length ∧ i.regBytes <+: i.operands

theorem add : ∀ a b d, Statement (.add a b d) :=
  fun _ _ _ => ⟨⟨_, rfl, rfl⟩, rfl, [], rfl⟩

theorem sub : ∀ a b d, Statement (.sub a b d) :=
  fun _ _ _ => ⟨⟨_, rfl, rfl⟩, rfl, [], rfl⟩

theorem mul : ∀ a b d, Statement (.mul a b d) :=
  fun _ _ _ => ⟨⟨_, rfl, rfl⟩, rfl, [], rfl⟩

theorem mod : ∀ a b d, Statement (.mod a b d) :=
  fun _ _ _ => ⟨⟨_, rfl, rfl⟩, rfl, [], rfl⟩

theorem inc : ∀ r, Statement (.inc r) :=
  fun _ => ⟨⟨_, rfl, rfl⟩, rfl, [], rfl⟩

theorem dec : ∀ r, Statement (.dec r) :=
  fun _ => ⟨⟨_, rfl, rfl⟩, rfl, [], rfl⟩

theorem eq : ∀ a b, Statement (.eq a b) :=
  fun _ _ => ⟨⟨_, rfl, rfl⟩, rfl, [], rfl⟩

theorem neq : ∀ a b, Statement (.neq a b) :=
  fun _ _ => ⟨⟨_, rfl, rfl⟩, rfl, [], rfl⟩

theorem gt : ∀ a b, Statement (.gt a b) :=
  fun _ _ => ⟨⟨_, rfl, rfl⟩, rfl, [], rfl⟩

theorem gte : ∀ a b, Statement (.gte a b) :=
  fun _ _ => ⟨⟨_, rfl, rfl⟩, rfl, [], rfl⟩

theorem lt : ∀ a b, Statement (.lt a b) :=
  fun _ _ => ⟨⟨_, rfl, rfl⟩, rfl, [], rfl⟩

theorem lte : ∀ a b, Statement (.lte a b) :=
  fun _ _ => ⟨⟨_, rfl, rfl⟩, rfl, [], rfl⟩

theorem hlt : Statement .hlt :=
  ⟨⟨_, rfl, rfl⟩, rfl, [], rfl⟩

theorem nop : Statement .nop :=
  ⟨⟨_, rfl, rfl⟩, rfl, [], rfl⟩

theorem load : ∀ r hi lo, Statement (.load r hi lo) :=
  fun _ hi lo => ⟨⟨_, rfl, rfl⟩, rfl, [hi, lo], rfl⟩

theorem jmp : ∀ r, Statement (.jmp r) :=
  fun _ => ⟨⟨_, rfl, rfl⟩, rfl, [], rfl⟩

theorem modr : ∀ r, Statement (.modr r) :=
  fun _ => ⟨⟨_, rfl, rfl⟩, rfl, [], rfl⟩

end Sys2Proof.Laws.EncodeShape
end

