-- ==== Sys2Proof/Laws/Step.lean ====
section
/-!
SUPPORT. Cycles: what a cycle does at each of the four ends of its fetch, what each meaning can do, and the state that
`withFetchWord` makes.
-/

namespace Sys2Proof.Machine

/-! ## A cycle by the end of its fetch -/

theorem step_of_faulted {s : State} (h : s.faulted = true) : step s = .next s := by
  simp only [step, h, if_true]

theorem step_of_not_faulted {s : State} (h : s.faulted = false) : step s = cycle s := by
  simp only [step, h, Bool.false_eq_true, if_false]

theorem cycle_of_got {s t : State} {i : Instr} (h : s.fetchInstr = .got i t) : cycle s = exec i t := by
  simp only [cycle, h]

theorem cycle_of_raised {s t : State} (h : s.fetchInstr = .raised t) : cycle s = .next t := by
  simp only [cycle, h]

/-! ## What a meaning can do

Eight endings cover every meaning; an invariant or a frame of `exec` is a case analysis over them. -/

/-- The instruction whose bytes have been fetched is `i`, and performing it from `s` ends in `t`. -/
inductive Effect (s : State) : Instr → State → Prop
  /-- a register-index byte names no register (R123) -/
  | badIndex {i} (h : i.wellFormed = false) : Effect s i (s.raise .registerIndex)
  /-- MOD by zero (R124) -/
  | zeroDivisor {a b d j} (h : Instr.wellFormed (.mod a b d) = true) (hb : regIndex b = some j)
      (hz : sval (s.readReg j) = 0) : Effect s (.mod a b d) (s.raise .divideByZero)
  /-- HLT and NOP (R100, R101) -/
  | nothing {i} (hi : i = .hlt ∨ i = .nop) : Effect s i s
  /-- the third operand byte names the register written (R81 to R83) -/
  | threeRegs {i a b d r} (hi : i = .add a b d ∨ i = .sub a b d ∨ i = .mul a b d) (h : i.wellFormed = true)
      (hr : regIndex d = some r) (v : Word) : Effect s i (s.writeReg r v)
  /-- the first operand byte names the register written (R85, R86, R102, R110) -/
  | oneReg {i rb hi lo r} (hi : i = .inc rb ∨ i = .dec rb ∨ i = .load rb hi lo ∨ i = .modr rb)
      (h : i.wellFormed = true) (hr : regIndex rb = some r) (v : Word) : Effect s i (s.writeReg r v)
  /-- a comparison (R91 to R96) -/
  | comparison {i a b}
      (hi : i = .eq a b ∨ i = .neq a b ∨ i = .gt a b ∨ i = .gte a b ∨ i = .lt a b ∨ i = .lte a b)
      (h : i.wellFormed = true) (v : Bool) : Effect s i (s.writeFlag v)
  /-- JMP (R103) -/
  | jump {rb r} (h : Instr.wellFormed (.jmp rb) = true) (hr : regIndex rb = some r) :
      Effect s (.jmp rb) (s.writePc (s.readReg r))
  /-- MOD by a divisor that is not zero (R84) -/
  | division {a b d j r} (h : Instr.wellFormed (.mod a b d) = true) (hb : regIndex b = some j)
      (hz : sval (s.readReg j) ≠ 0) (hr : regIndex d = some r) (v w : Word) :
      Effect s (.mod a b d) ((s.writeReg r v).writeRem w)

theorem wellFormed_of_validIndex3 {a b d : Byte} {i j l : Fin Config.nreg} (ha : regIndex a = some i)
    (hb : regIndex b = some j) (hd : regIndex d = some l) : [a, b, d].all validIndex = true := by
  simp [validIndex_iff.mpr ⟨i, ha⟩, validIndex_iff.mpr ⟨j, hb⟩, validIndex_iff.mpr ⟨l, hd⟩]

theorem wellFormed_of_validIndex2 {a b : Byte} {i j : Fin Config.nreg} (ha : regIndex a = some i)
    (hb : regIndex b = some j) : [a, b].all validIndex = true := by
  simp [validIndex_iff.mpr ⟨i, ha⟩, validIndex_iff.mpr ⟨j, hb⟩]

theorem wellFormed_of_validIndex1 {a : Byte} {i : Fin Config.nreg} (ha : regIndex a = some i) :
    [a].all validIndex = true := by
  simp [validIndex_iff.mpr ⟨i, ha⟩]

theorem not_wellFormed3 {a b d : Byte} (h : (validIndex a && validIndex b && validIndex d) = false) :
    [a, b, d].all validIndex = false := by
  simpa [Bool.and_assoc] using h

theorem not_wellFormed2 {a b : Byte} (h : (validIndex a && validIndex b) = false) :
    [a, b].all validIndex = false := by
  simpa using h

theorem not_wellFormed1 {a : Byte} (h : validIndex a = false) : [a].all validIndex = false := by
  simpa using h

/-- What every meaning can do: it answers a next state, and that state is one of the eight of `Effect`. -/
theorem exec_effect (i : Instr) (s : State) : ∃ t, exec i s = .next t ∧ Effect s i t := by
  cases i with
  | add a b d =>
    refine ⟨_, rfl, ?_⟩
    obtain ⟨i, j, l, ha, hb, hd, e⟩ | ⟨h, e⟩ := withRegs3_cases s a b d _ <;> rw [e]
    · exact .threeRegs (.inl rfl) (wellFormed_of_validIndex3 ha hb hd) hd _
    · exact .badIndex (not_wellFormed3 h)
  | sub a b d =>
    refine ⟨_, rfl, ?_⟩
    obtain ⟨i, j, l, ha, hb, hd, e⟩ | ⟨h, e⟩ := withRegs3_cases s a b d _ <;> rw [e]
    · exact .threeRegs (.inr (.inl rfl)) (wellFormed_of_validIndex3 ha hb hd) hd _
    · exact .badIndex (not_wellFormed3 h)
  | mul a b d =>
    refine ⟨_, rfl, ?_⟩
    obtain ⟨i, j, l, ha, hb, hd, e⟩ | ⟨h, e⟩ := withRegs3_cases s a b d _ <;> rw [e]
    · exact .threeRegs (.inr (.inr rfl)) (wellFormed_of_validIndex3 ha hb hd) hd _
    · exact .badIndex (not_wellFormed3 h)
  | mod a b d =>
    refine ⟨_, rfl, ?_⟩
    obtain ⟨i, j, l, ha, hb, hd, e⟩ | ⟨h, e⟩ := withRegs3_cases s a b d _ <;> rw [e]
    · have hw := wellFormed_of_validIndex3 ha hb hd
      obtain ⟨hz, e'⟩ | ⟨hz, e'⟩ := s.divide_cases i j l <;> rw [e']
      · exact .zeroDivisor hw hb hz
      · exact .division hw hb hz hd _ _
    · exact .badIndex (not_wellFormed3 h)
  | inc r =>
    refine ⟨_, rfl, ?_⟩
    obtain ⟨i, hr, e⟩ | ⟨h, e⟩ := withReg_cases s r _ <;> rw [e]
    · exact .oneReg (hi := 0) (lo := 0) (.inl rfl) (wellFormed_of_validIndex1 hr) hr _
    · exact .badIndex (not_wellFormed1 h)
  | dec r =>
    refine ⟨_, rfl, ?_⟩
    obtain ⟨i, hr, e⟩ | ⟨h, e⟩ := withReg_cases s r _ <;> rw [e]
    · exact .oneReg (hi := 0) (lo := 0) (.inr (.inl rfl)) (wellFormed_of_validIndex1 hr) hr _
    · exact .badIndex (not_wellFormed1 h)
  | eq a b =>
    refine ⟨_, rfl, ?_⟩
    obtain ⟨i, j, ha, hb, e⟩ | ⟨h, e⟩ := withRegs2_cases s a b _ <;> rw [e]
    · exact .comparison (.inl rfl) (wellFormed_of_validIndex2 ha hb) _
    · exact .badIndex (not_wellFormed2 h)
  | neq a b =>
    refine ⟨_, rfl, ?_⟩
    obtain ⟨i, j, ha, hb, e⟩ | ⟨h, e⟩ := withRegs2_cases s a b _ <;> rw [e]
    · exact .comparison (.inr (.inl rfl)) (wellFormed_of_validIndex2 ha hb) _
    · exact .badIndex (not_wellFormed2 h)
  | gt a b =>
    refine ⟨_, rfl, ?_⟩
    obtain ⟨i, j, ha, hb, e⟩ | ⟨h, e⟩ := withRegs2_cases s a b _ <;> rw [e]
    · exact .comparison (.inr (.inr (.inl rfl))) (wellFormed_of_validIndex2 ha hb) _
    · exact .badIndex (not_wellFormed2 h)
  | gte a b =>
    refine ⟨_, rfl, ?_⟩
    obtain ⟨i, j, ha, hb, e⟩ | ⟨h, e⟩ := withRegs2_cases s a b _ <;> rw [e]
    · exact .comparison (.inr (.inr (.inr (.inl rfl)))) (wellFormed_of_validIndex2 ha hb) _
    · exact .badIndex (not_wellFormed2 h)
  | lt a b =>
    refine ⟨_, rfl, ?_⟩
    obtain ⟨i, j, ha, hb, e⟩ | ⟨h, e⟩ := withRegs2_cases s a b _ <;> rw [e]
    · exact .comparison (.inr (.inr (.inr (.inr (.inl rfl))))) (wellFormed_of_validIndex2 ha hb) _
    · exact .badIndex (not_wellFormed2 h)
  | lte a b =>
    refine ⟨_, rfl, ?_⟩
    obtain ⟨i, j, ha, hb, e⟩ | ⟨h, e⟩ := withRegs2_cases s a b _ <;> rw [e]
    · exact .comparison (.inr (.inr (.inr (.inr (.inr rfl))))) (wellFormed_of_validIndex2 ha hb) _
    · exact .badIndex (not_wellFormed2 h)
  | hlt => exact ⟨s, rfl, .nothing (.inl rfl)⟩
  | nop => exact ⟨s, rfl, .nothing (.inr rfl)⟩
  | load r hi lo =>
    refine ⟨_, rfl, ?_⟩
    obtain ⟨i, hr, e⟩ | ⟨h, e⟩ := withReg_cases s r _ <;> rw [e]
    · exact .oneReg (.inr (.inr (.inl rfl))) (wellFormed_of_validIndex1 hr) hr _
    · exact .badIndex (not_wellFormed1 h)
  | jmp r =>
    refine ⟨_, rfl, ?_⟩
    obtain ⟨i, hr, e⟩ | ⟨h, e⟩ := withReg_cases s r _ <;> rw [e]
    · exact .jump (wellFormed_of_validIndex1 hr) hr
    · exact .badIndex (not_wellFormed1 h)
  | modr r =>
    refine ⟨_, rfl, ?_⟩
    obtain ⟨i, hr, e⟩ | ⟨h, e⟩ := withReg_cases s r _ <;> rw [e]
    · exact .oneReg (hi := 0) (lo := 0) (.inr (.inr (.inr rfl))) (wellFormed_of_validIndex1 hr) hr _
    · exact .badIndex (not_wellFormed1 h)

/-! ## What a step can do -/

/-- A step that answers `t` left a faulted block alone, raised a fault in fetching, or performed an instruction. -/
theorem step_inversion {s t : State} (h : step s = .next t) :
    (s.faulted = true ∧ t = s) ∨
    (s.faulted = false ∧ s.fetchInstr = .raised t) ∨
    (s.faulted = false ∧ ∃ i u, s.fetchInstr = .got i u ∧ Effect u i t) := by
  cases hf : s.faulted with
  | true =>
    rw [step_of_faulted hf] at h
    cases h
    exact .inl ⟨rfl, rfl⟩
  | false =>
    rw [step_of_not_faulted hf] at h
    refine .inr ?_
    cases hi : s.fetchInstr with
    | raised u =>
      rw [cycle_of_raised hi] at h
      cases h
      exact .inl ⟨rfl, rfl⟩
    | got i u =>
      rw [cycle_of_got hi] at h
      obtain ⟨v, hv, he⟩ := exec_effect i u
      rw [hv] at h
      cases h
      exact .inr ⟨rfl, i, u, rfl, he⟩

/-! ## The state made for the host's checks -/

theorem tableBytes_length (nbits w : Nat) : (tableBytes nbits w).length = 4 := rfl

/-- `withFetchWord` changes neither `pc` nor a register, `rem` or `flag`. -/
theorem withFetchWord_frame (s : State) (nbits w : Nat) :
    (s.withFetchWord nbits w).pc = s.pc ∧ (s.withFetchWord nbits w).regs = s.regs ∧
      (s.withFetchWord nbits w).rem = s.rem ∧ (s.withFetchWord nbits w).flag = s.flag := by
  obtain ⟨h, e⟩ | ⟨h, e⟩ := s.placeBytes_cases s.pc.toNat (tableBytes nbits w) <;>
    simp [State.withFetchWord, e]

/-- In a canonical state whose `pc` leaves room, the bytes at `pc` are the word's. -/
theorem withFetchWord_memRead {s : State} {nbits w j : Nat} (hw : Memory.wf s.imem = true)
    (hp : s.pc.toNat + 4 < Config.imageBound) (hj : j < 4) :
    (s.withFetchWord nbits w).memRead (s.pc + BitVec.ofNat 32 j) =
      some ((tableBytes nbits w)[j]'(by rw [tableBytes_length]; exact hj)) := by
  have hl : s.len.val < 2147483648 := s.len.isLt
  have hp' : s.pc.toNat + 4 < 2147483648 := hp
  have ha : (s.pc + BitVec.ofNat 32 j).toNat = s.pc.toNat + j := by
    rw [BitVec.toNat_add, BitVec.toNat_ofNat]
    omega
  have hlen := tableBytes_length nbits w
  obtain ⟨h, e⟩ | ⟨h, e⟩ := s.placeBytes_cases s.pc.toNat (tableBytes nbits w)
  · rw [State.memRead_eq_some, ha]
    have hk : j < (tableBytes nbits w).length := by omega
    refine ⟨?_, ?_⟩
    · simp only [State.withFetchWord, e]
      omega
    · simp only [State.withFetchWord, e]
      exact Memory.read_place hw hk
  · have hb : Config.imageBound = 2147483648 := rfl
    omega

end Sys2Proof.Machine
end

