-- ==== Sys2Proof/Tests/Slice0.lean ====
section
/-!
SUPPORT. Tests of the model and witnesses for the statements. The expected values of the tests come from the spec's tables
and examples (`spec/95_test_vectors.md`, and the file each test names), never from the model.
-/

namespace Sys2Proof.Tests

open Sys2Proof Sys2Proof.Machine

/-! ## Helpers -/

/-- A run of the image about to start. -/
def image (bytes : List Byte) : State :=
  match boot bytes with
  | some s => s
  | none => State.reset

/-- The same with `x[1]` and `x[2]` set. -/
def image12 (bytes : List Byte) (v w : Word) : State := ((image bytes).writeReg 1 v).writeReg 2 w

/-- The state one step later. -/
def next (s : State) : State :=
  match step s with
  | .next t => t
  | .fault _ => s
  | .refused _ => s

/-- Whether an outcome is a next state. -/
def answersNext (o : Host.Outcome State Fault Refusal) : Bool :=
  match o with
  | .next _ => true
  | .fault _ => false
  | .refused _ => false

theorem steps {s : State} (h : answersNext (step s) = true) : step s = .next (next s) := by
  unfold next
  cases hs : step s with
  | next t => rfl
  | fault f => rw [hs] at h; cases h
  | refused r => rw [hs] at h; cases h

def intMax : Word := 0x7FFFFFFF
def intMin : Word := 0x80000000

/-! ## Well-formedness: an ill-formed term for each register position, refused -/

theorem test_wf_add : Instr.wellFormed (.add 31 0 31) = true := by decide
theorem test_wf_add_a : Instr.wellFormed (.add 32 0 0) = false := by decide
theorem test_wf_sub_b : Instr.wellFormed (.sub 0 32 0) = false := by decide
theorem test_wf_mul_d : Instr.wellFormed (.mul 0 0 32) = false := by decide
theorem test_wf_mod_d : Instr.wellFormed (.mod 0 0 255) = false := by decide
theorem test_wf_inc : Instr.wellFormed (.inc 32) = false := by decide
theorem test_wf_dec : Instr.wellFormed (.dec 200) = false := by decide
theorem test_wf_eq_a : Instr.wellFormed (.eq 32 0) = false := by decide
theorem test_wf_lte_b : Instr.wellFormed (.lte 0 32) = false := by decide
theorem test_wf_load_r : Instr.wellFormed (.load 32 0 0) = false := by decide
theorem test_wf_load_immediate : Instr.wellFormed (.load 31 255 255) = true := by decide
theorem test_wf_jmp : Instr.wellFormed (.jmp 32) = false := by decide
theorem test_wf_modr : Instr.wellFormed (.modr 255) = false := by decide

/-! ## Decoding: one word for each constructor, written from R55 of `spec/30_encoding.md` -/

theorem test_decode_add : decode [0x01, 0x0D, 0x0E, 0x0F] = .ok (.add 13 14 15, []) := by decide
theorem test_decode_sub : decode [0x02, 0x0D, 0x0E, 0x10] = .ok (.sub 13 14 16, []) := by decide
theorem test_decode_mul : decode [0x03, 0x0D, 0x0E, 0x11] = .ok (.mul 13 14 17, []) := by decide
theorem test_decode_mod : decode [0x04, 0x0D, 0x0E, 0x12] = .ok (.mod 13 14 18, []) := by decide
theorem test_decode_inc : decode [0x05, 0x03] = .ok (.inc 3, []) := by decide
theorem test_decode_dec : decode [0x06, 0x01] = .ok (.dec 1, []) := by decide
theorem test_decode_eq : decode [0x07, 0x01, 0x02] = .ok (.eq 1 2, []) := by decide
theorem test_decode_neq : decode [0x08, 0x01, 0x02] = .ok (.neq 1 2, []) := by decide
theorem test_decode_gt : decode [0x09, 0x01, 0x02] = .ok (.gt 1 2, []) := by decide
theorem test_decode_gte : decode [0x0A, 0x02, 0x01] = .ok (.gte 2 1, []) := by decide
theorem test_decode_lt : decode [0x0B, 0x01, 0x02] = .ok (.lt 1 2, []) := by decide
theorem test_decode_lte : decode [0x0C, 0x01, 0x02] = .ok (.lte 1 2, []) := by decide
theorem test_decode_hlt : decode [0x0D, 0x05, 0x00] = .ok (.hlt, [0x05, 0x00]) := by decide
theorem test_decode_nop : decode [0x0E] = .ok (.nop, []) := by decide
theorem test_decode_load : decode [0x0F, 0x05, 0x01, 0x00] = .ok (.load 5 1 0, []) := by decide
theorem test_decode_jmp : decode [0x10, 0x01] = .ok (.jmp 1, []) := by decide
theorem test_decode_modr : decode [0x11, 0xFF] = .ok (.modr 255, []) := by decide
theorem test_decode_invalid :
    decode [0x00] = .error (.invalidOpcode 0) ∧ decode [0x12, 0x00] = .error (.invalidOpcode 18) ∧
    decode [0xFF] = .error (.invalidOpcode 255) := by decide
theorem test_decode_short : decode [] = .error .noOpcode ∧ decode [0x0F, 0x28, 0x00] = .error (.missingOperand 2) := by
  decide

/-- The table's numbering: bits 7..0 are the first byte; HLT is 8 bits, ADD 32. -/
theorem test_table_word :
    decodeTableWord 8 0x0D = some .hlt ∧ decodeTableWord 32 0x0F0E0D01 = some (.add 13 14 15) ∧
    decodeTableWord 32 0x100F050F = some (.load 5 15 16) ∧ decodeTableWord 16 0x0705 = some (.inc 7) ∧
    decodeTableWord 24 0x020107 = some (.eq 1 2) ∧ decodeTableWord 8 0 = none := by decide

/-! ## A placed instruction is the one that runs -/

theorem test_withFetchWord_load :
    next (State.reset.withFetchWord 32 0x100F050F) =
      ((State.reset.withFetchWord 32 0x100F050F).writePc 4).writeReg 5 3856 := by decide
theorem test_withFetchWord_hlt :
    next (State.reset.withFetchWord 8 0x0D) = (State.reset.withFetchWord 8 0x0D).writePc 1 := by decide

/-! ## One step of each instruction, on the vectors of part 2 of `spec/95_test_vectors.md` -/

theorem test_add_source :
    next (image12 [0x01, 1, 2, 3] 3855 4112) =
      ((image12 [0x01, 1, 2, 3] 3855 4112).writePc 4).writeReg 3 7967 := by decide
theorem test_add_wraps : (next (image12 [0x01, 1, 2, 3] intMax 1)).readReg 3 = 0x80000000 := by decide
theorem test_sub_source :
    next (image12 [0x02, 1, 2, 3] 3855 4112) =
      ((image12 [0x02, 1, 2, 3] 3855 4112).writePc 4).writeReg 3 0xFFFFFEFF := by decide
theorem test_sub_wraps : (next (image12 [0x02, 1, 2, 3] intMin 1)).readReg 3 = 0x7FFFFFFF := by decide
theorem test_mul_source :
    next (image12 [0x03, 1, 2, 3] 3855 4112) =
      ((image12 [0x03, 1, 2, 3] 3855 4112).writePc 4).writeReg 3 15851760 := by decide
theorem test_mul_wraps : (next (image12 [0x03, 1, 2, 3] 46341 46341)).readReg 3 = 0x80001219 := by decide
theorem test_mod_truncates :
    next (image12 [0x04, 1, 2, 3] (-7) 2) =
      (((image12 [0x04, 1, 2, 3] (-7) 2).writePc 4).writeReg 3 (-3)).writeRem (-1) := by decide
theorem test_mod_destination_is_dividend :
    (next (image12 [0x04, 1, 2, 1] 17 5)).readReg 1 = 3 ∧ (next (image12 [0x04, 1, 2, 1] 17 5)).rem = 2 := by decide
theorem test_inc_wraps :
    next (image12 [0x05, 1] intMax 0) = ((image12 [0x05, 1] intMax 0).writePc 2).writeReg 1 intMin := by decide
theorem test_dec_below_zero : (next (image [0x06, 1])).readReg 1 = 0xFFFFFFFF := by decide
theorem test_eq_overwrites :
    next ((image12 [0x07, 1, 2] 5 6).writeFlag true) = (image12 [0x07, 1, 2] 5 6).writePc 3 := by decide
theorem test_eq_same : (next (image [0x07, 3, 3])).flag = true := by decide
theorem test_neq : (next (image12 [0x08, 1, 2] 5 6)).flag = true := by decide
theorem test_neq_same : (next (image [0x08, 3, 3])).flag = false := by decide
theorem test_gt_signed : (next (image12 [0x09, 1, 2] (-1) 0)).flag = false := by decide
theorem test_gt_order : (next (image12 [0x09, 1, 2] 6 5)).flag = true := by decide
theorem test_gte_signed : (next (image12 [0x0A, 1, 2] intMin intMax)).flag = false := by decide
theorem test_gte_equal : (next (image12 [0x0A, 1, 2] 5 5)).flag = true := by decide
theorem test_lt_signed : (next (image12 [0x0B, 1, 2] (-1) 0)).flag = true := by decide
theorem test_lt_equal : (next (image12 [0x0B, 1, 2] 5 5)).flag = false := by decide
theorem test_lte_signed : (next (image12 [0x0C, 1, 2] intMax intMin)).flag = false := by decide
theorem test_lte_equal : (next (image12 [0x0C, 1, 2] 5 5)).flag = true := by decide
theorem test_hlt_does_not_stop :
    (next (next (image [0x0D, 0x05, 0x00]))).readReg 0 = 1 := by decide
theorem test_nop : next (image [0x0E]) = (image [0x0E]).writePc 1 := by decide
theorem test_load_big_endian : (next (image [0x0F, 5, 1, 0])).readReg 5 = 256 := by decide
theorem test_load_zero_extends :
    next (image12 [0x0F, 1, 0x80, 0] (-1) 0) =
      ((image12 [0x0F, 1, 0x80, 0] (-1) 0).writePc 4).writeReg 1 0x00008000 := by decide
theorem test_jmp_negative :
    (next (image12 [0x10, 1] (-1) 0)).pc = 0xFFFFFFFF ∧ (next (image12 [0x10, 1] (-1) 0)).status = .halted := by decide
theorem test_jmp_backwards :
    (next (image12 [0x0E, 0x10, 1] 0 0 |>.writePc 1)).pc = 0 := by decide
theorem test_modr :
    next ((image [0x11, 4]).writeRem (-1)) = (((image [0x11, 4]).writeRem (-1)).writePc 2).writeReg 4 (-1) := by decide

/-! ## Faults, on the vectors of part 2.11 -/

theorem test_fault_opcode : next (image [0x63]) = ((image [0x63]).writePc 1).raise .invalidOpcode := by decide
theorem test_fault_operand : next (image [0x01, 0, 1]) = ((image [0x01, 0, 1]).writePc 3).raise .imageOutOfBounds := by
  decide
theorem test_fault_operand_before_index : (next (image [0x0F, 0x28, 0])).faultCause = 2 := by decide
theorem test_fault_index : next (image [0x07, 0, 32]) = ((image [0x07, 0, 32]).writePc 3).raise .registerIndex := by
  decide
theorem test_fault_divisor :
    next (image [0x04, 0, 1, 2]) = ((image [0x04, 0, 1, 2]).writePc 4).raise .divideByZero := by decide
theorem test_fault_index_before_divisor : (next (image [0x04, 0, 1, 0xC8])).faultCause = 3 := by decide
theorem test_index_31 : (next (image [0x05, 0x1F])).readReg 31 = 1 ∧ (next (image [0x05, 0x1F])).status = .halted := by
  decide

/-! ## The host -/

/-- The empty image is Halted at once; a `Step` on it faults and leaves `pc` (decision D20). -/
theorem test_empty_image :
    (image []).status = .halted ∧ (image []).runFor 3 = image [] ∧
    next (image []) = (image []).raise .imageOutOfBounds := by decide

/-- Program P2 of part 3: a forward jump over code. -/
theorem test_run_jump :
    let t := (image [0x0F, 1, 0, 9, 0x10, 1, 0x05, 2, 0x0D, 0x05, 3]).runFor 3
    t.pc = 11 ∧ t.status = .halted ∧ t.readReg 1 = 9 ∧ t.readReg 2 = 0 ∧ t.readReg 3 = 1 := by decide

/-- R159: `SetPC` is refused on a faulted block only. -/
theorem test_setPC :
    hostOp (.setPC 9) (image [0x0E]) = ((image [0x0E]).writePc 9, .done) ∧
    (hostOp (.setPC 9) (next (image [0x63]))).2 = .refused .setPCWhileFaulted := by decide

/-- R150: `Reset` leaves the image and clears the fault. -/
theorem test_reset : (hostOp .reset (next (image [0x63]))).1 = image [0x63] := by decide

/-- U20: an image of 2^31 bytes is refused. -/
theorem test_image_too_long : boot (List.replicate (2 ^ 31) 0) = none := by
  simp only [boot, State.loadImage, List.length_replicate]; rfl

/-! ## The assembly notation (part 1 S1 and S2 of the vectors; R62 to R70) -/

theorem test_assemble_immediates :
    assemble [['A', 'D', 'D', ' ', '#', '1', ',', ' ', '#', '2', ',', ' ', '#', '3']] = .ok [1, 1, 2, 3] := by decide
theorem test_assemble_mixed :
    assembleText [';', 'x', '\n', ' ', '\n', 'l', 'o', 'a', 'd', ' ', '$', '1', '3', ',', '#', '1', '5', ',',
      '#', '2', '5', '5', '\n', 'H', 'l', 't', ' '] = .ok [0x0F, 13, 15, 255, 0x0D] := by decide
theorem test_assemble_batch :
    assemble [['N', 'O', 'P'], ['F', 'O', 'O'], ['J', 'M', 'P', ' ', '$', '2', '5', '6'], ['X', ' ', '$', '1'],
        ['I', 'N', 'C', ' ', '$', '1', ',', '$', '2']] =
      .error [.invalidLine 2, .unexpectedToken 3 ['$', '2', '5', '6'], .invalidMnemonic 4 ['X'], .operandCount 5] := by
  decide
theorem test_disassemble :
    disassemble (.load 13 15 255) = ['L', 'O', 'A', 'D', ' ', '$', '1', '3', ',', ' ', '#', '1', '5', ',', ' ',
      '#', '2', '5', '5'] := by decide

/-! ## Witnesses: for each statement with hypotheses, concrete inputs that meet them together, clause by clause -/

theorem witness_DecodeAndEncodeAgree : decode [0x11, 0xFF, 0xAA] = .ok (.modr 0xFF, [0xAA]) := by decide

theorem witness_StreamRoundTrip :
    decodeAll [0x0F, 0x01, 0x01, 0x02, 0x0D, 0x10, 0xFF] = .ok [.load 1 1 2, .hlt, .jmp 0xFF] := by decide

theorem witness_InvalidOpcodeBytes_raised :
    ((image [0x00]).faulted = false ∧ (image [0x00]).memRead (image [0x00]).pc = some 0x00 ∧ (0x00 : Byte).toNat = 0) ∧
    ((image [0x12]).faulted = false ∧ (image [0x12]).memRead (image [0x12]).pc = some 0x12 ∧
      18 ≤ (0x12 : Byte).toNat) ∧
    ((image [0xFF]).faulted = false ∧ (image [0xFF]).memRead (image [0xFF]).pc = some 0xFF ∧
      18 ≤ (0xFF : Byte).toNat) := by decide

theorem witness_InvalidOpcodeBytes_never :
    ((image [0x01]).faulted = false ∧ (image [0x01]).memRead (image [0x01]).pc = some 0x01 ∧
      step (image [0x01]) = .next (next (image [0x01])) ∧ (next (image [0x01])).faulted = true) ∧
    ((image [0x11, 32]).faulted = false ∧ (image [0x11, 32]).memRead (image [0x11, 32]).pc = some 0x11 ∧
      step (image [0x11, 32]) = .next (next (image [0x11, 32])) ∧ (next (image [0x11, 32])).faulted = true) := by
  and_intros <;> first | decide | exact steps (by decide)

/-- The shared premises of the cycle statements: the block is not faulted and the byte at `pc` is the opcode. -/
def At (s : State) (op : Byte) : Prop := s.faulted = false ∧ s.memRead s.pc = some op

/-- The operand bytes that follow the opcode byte. -/
def Follow (s : State) (ops : List Byte) : Prop :=
  (List.range ops.length).all (fun k => decide (s.memRead (s.pc + 1 + BitVec.ofNat 32 k) = ops[k]?)) = true

theorem witness_AddSubMulCycle_result :
    (∃ f : Int → Int → Int, f = (fun m n => m + n)) ∧ (∃ f : Int → Int → Int, f = (fun m n => m - n)) ∧
    (∃ f : Int → Int → Int, f = (fun m n => m * n)) ∧
    (At (image [0x01, 31, 0, 31]) 0x01 ∧ Follow (image [0x01, 31, 0, 31]) [31, 0, 31]) ∧
    (At (image [0x02, 0, 31, 0]) 0x02 ∧ Follow (image [0x02, 0, 31, 0]) [0, 31, 0]) ∧
    (At (image [0x03, 1, 2, 3]) 0x03 ∧ Follow (image [0x03, 1, 2, 3]) [1, 2, 3]) :=
  ⟨⟨_, rfl⟩, ⟨_, rfl⟩, ⟨_, rfl⟩, by unfold At Follow; decide⟩

theorem witness_AddSubMulCycle_index :
    (At (image [0x01, 32, 0, 0]) 0x01 ∧ Follow (image [0x01, 32, 0, 0]) [32, 0, 0] ∧ 32 ≤ (32 : Byte).toNat) ∧
    (At (image [0x02, 0, 32, 0]) 0x02 ∧ Follow (image [0x02, 0, 32, 0]) [0, 32, 0]) ∧
    (At (image [0x03, 0, 0, 255]) 0x03 ∧ Follow (image [0x03, 0, 0, 255]) [0, 0, 255] ∧ 32 ≤ (255 : Byte).toNat) := by
  unfold At Follow; decide

/-- `k = 0` and `k = 2`: the first and the last operand byte missing. -/
theorem witness_AddSubMulCycle_missing :
    (At (image [0x01]) 0x01 ∧ (image [0x01]).memRead ((image [0x01]).pc + 1 + 0) = none) ∧
    (At (image [0x03, 1, 2]) 0x03 ∧ Follow (image [0x03, 1, 2]) [1, 2] ∧
      (image [0x03, 1, 2]).memRead ((image [0x03, 1, 2]).pc + 1 + 2) = none) := by unfold At Follow; decide

theorem witness_ModCycle_divisor :
    (At (image12 [0x04, 1, 2, 31] 5 0) 0x04 ∧ Follow (image12 [0x04, 1, 2, 31] 5 0) [1, 2, 31] ∧
      ((image12 [0x04, 1, 2, 31] 5 0).readReg 2).toInt = 0) ∧
    (At (image12 [0x04, 1, 2, 0] intMin (-1)) 0x04 ∧ Follow (image12 [0x04, 1, 2, 0] intMin (-1)) [1, 2, 0] ∧
      ((image12 [0x04, 1, 2, 0] intMin (-1)).readReg 2).toInt ≠ 0) := by unfold At Follow; decide

theorem witness_ModCycle_index :
    At (image [0x04, 0, 31, 32]) 0x04 ∧ Follow (image [0x04, 0, 31, 32]) [0, 31, 32] ∧ 32 ≤ (32 : Byte).toNat := by
  unfold At Follow; decide

theorem witness_ModCycle_missing :
    At (image [0x04, 1, 2]) 0x04 ∧ Follow (image [0x04, 1, 2]) [1, 2] ∧
    (image [0x04, 1, 2]).memRead ((image [0x04, 1, 2]).pc + 1 + 2) = none := by unfold At Follow; decide

theorem witness_IncDecCycle :
    (∃ f : Int → Int, f = (fun n => n + 1)) ∧ (∃ f : Int → Int, f = (fun n => n - 1)) ∧
    (At (image [0x05, 31]) 0x05 ∧ Follow (image [0x05, 31]) [31]) ∧
    (At (image [0x06, 0]) 0x06 ∧ Follow (image [0x06, 0]) [0]) ∧
    (At (image [0x05, 32]) 0x05 ∧ Follow (image [0x05, 32]) [32] ∧ 32 ≤ (32 : Byte).toNat) ∧
    (At (image [0x06]) 0x06 ∧ (image [0x06]).memRead ((image [0x06]).pc + 1) = none) :=
  ⟨⟨_, rfl⟩, ⟨_, rfl⟩, by unfold At Follow; decide⟩

theorem witness_ComparisonCycle_result :
    (∃ f : Int → Int → Bool, f = (fun m n => decide (m = n))) ∧
    (∃ f : Int → Int → Bool, f = (fun m n => decide (m ≠ n))) ∧
    (∃ f : Int → Int → Bool, f = (fun m n => decide (m > n))) ∧
    (∃ f : Int → Int → Bool, f = (fun m n => decide (m ≥ n))) ∧
    (∃ f : Int → Int → Bool, f = (fun m n => decide (m < n))) ∧
    (∃ f : Int → Int → Bool, f = (fun m n => decide (m ≤ n))) ∧
    (At (image [0x07, 31, 0]) 0x07 ∧ Follow (image [0x07, 31, 0]) [31, 0]) ∧
    (At (image [0x08, 0, 31]) 0x08 ∧ Follow (image [0x08, 0, 31]) [0, 31]) ∧
    (At (image [0x09, 1, 2]) 0x09 ∧ Follow (image [0x09, 1, 2]) [1, 2]) ∧
    (At (image [0x0A, 1, 2]) 0x0A ∧ Follow (image [0x0A, 1, 2]) [1, 2]) ∧
    (At (image [0x0B, 1, 2]) 0x0B ∧ Follow (image [0x0B, 1, 2]) [1, 2]) ∧
    (At (image [0x0C, 1, 2]) 0x0C ∧ Follow (image [0x0C, 1, 2]) [1, 2]) :=
  ⟨⟨_, rfl⟩, ⟨_, rfl⟩, ⟨_, rfl⟩, ⟨_, rfl⟩, ⟨_, rfl⟩, ⟨_, rfl⟩, by unfold At Follow; decide⟩

theorem witness_ComparisonCycle_faults :
    (At (image [0x07, 32, 31]) 0x07 ∧ Follow (image [0x07, 32, 31]) [32, 31] ∧ 32 ≤ (32 : Byte).toNat) ∧
    (At (image [0x0B]) 0x0B ∧ (image [0x0B]).memRead ((image [0x0B]).pc + 1 + 0) = none) ∧
    (At (image [0x0C, 1]) 0x0C ∧ Follow (image [0x0C, 1]) [1] ∧
      (image [0x0C, 1]).memRead ((image [0x0C, 1]).pc + 1 + 1) = none) := by unfold At Follow; decide

theorem witness_HltNopCycle :
    (At (image [0x0D]) 0x0D ∧ (image [0x0D]).pc.toNat + 1 = (image [0x0D]).len.val) ∧
    (At (image [0x0E, 0x0E]) 0x0E ∧ (image [0x0E, 0x0E]).pc.toNat + 1 ≠ (image [0x0E, 0x0E]).len.val) := by
  unfold At; decide

theorem witness_LoadCycle :
    (At (image [0x0F, 31, 255, 255]) 0x0F ∧ Follow (image [0x0F, 31, 255, 255]) [31, 255, 255]) ∧
    (At (image [0x0F, 32, 1, 2]) 0x0F ∧ Follow (image [0x0F, 32, 1, 2]) [32, 1, 2] ∧ 32 ≤ (32 : Byte).toNat) ∧
    (At (image [0x0F]) 0x0F ∧ (image [0x0F]).memRead ((image [0x0F]).pc + 1 + 0) = none) ∧
    (At (image [0x0F, 40, 0]) 0x0F ∧ Follow (image [0x0F, 40, 0]) [40, 0] ∧
      (image [0x0F, 40, 0]).memRead ((image [0x0F, 40, 0]).pc + 1 + 2) = none) := by unfold At Follow; decide

/-- Targets `L - 1`, `L` and a negative one, then the two faults. -/
theorem witness_JmpCycle :
    (At (image12 [0x10, 1] 1 0) 0x10 ∧ Follow (image12 [0x10, 1] 1 0) [1] ∧
      ((image12 [0x10, 1] 1 0).readReg 1).toNat < (image12 [0x10, 1] 1 0).len.val) ∧
    (At (image12 [0x10, 1] 2 0) 0x10 ∧ Follow (image12 [0x10, 1] 2 0) [1] ∧
      (image12 [0x10, 1] 2 0).len.val ≤ ((image12 [0x10, 1] 2 0).readReg 1).toNat) ∧
    (At (image12 [0x10, 1] intMin 0) 0x10 ∧ Follow (image12 [0x10, 1] intMin 0) [1] ∧
      ((image12 [0x10, 1] intMin 0).readReg 1).toInt < 0) ∧
    (At (image [0x10, 32]) 0x10 ∧ Follow (image [0x10, 32]) [32] ∧ 32 ≤ (32 : Byte).toNat) ∧
    (At (image [0x10]) 0x10 ∧ (image [0x10]).memRead ((image [0x10]).pc + 1) = none) := by unfold At Follow; decide

theorem witness_ModrCycle :
    (At (image [0x11, 31]) 0x11 ∧ Follow (image [0x11, 31]) [31]) ∧
    (At (image [0x11, 32]) 0x11 ∧ Follow (image [0x11, 32]) [32] ∧ 32 ≤ (32 : Byte).toNat) ∧
    (At (image [0x11]) 0x11 ∧ (image [0x11]).memRead ((image [0x11]).pc + 1) = none) := by unfold At Follow; decide

/-- One disjunct of each shape, at the boundary indices 0 and 31. -/
theorem witness_RegisterWritersComplete :
    Instr.add 31 0 31 = .add (BitVec.ofNat 8 (31 : Fin 32).val) (BitVec.ofNat 8 (0 : Fin 32).val)
      (BitVec.ofNat 8 (31 : Fin 32).val) ∧
    Instr.sub 0 31 0 = .sub (BitVec.ofNat 8 (0 : Fin 32).val) (BitVec.ofNat 8 (31 : Fin 32).val)
      (BitVec.ofNat 8 (0 : Fin 32).val) ∧
    Instr.mul 0 0 0 = .mul (BitVec.ofNat 8 (0 : Fin 32).val) (BitVec.ofNat 8 (0 : Fin 32).val)
      (BitVec.ofNat 8 (0 : Fin 32).val) ∧
    Instr.inc 31 = .inc (BitVec.ofNat 8 (31 : Fin 32).val) ∧ Instr.dec 0 = .dec (BitVec.ofNat 8 (0 : Fin 32).val) ∧
    Instr.load 31 255 0 = .load (BitVec.ofNat 8 (31 : Fin 32).val) 255 0 ∧
    Instr.modr 31 = .modr (BitVec.ofNat 8 (31 : Fin 32).val) := by decide

theorem witness_ModCompletes : ((image12 [] intMin (-1)).readReg 2).toInt ≠ 0 := by decide

theorem witness_ComparisonsComplete :
    Instr.eq 31 0 = .eq (BitVec.ofNat 8 (31 : Fin 32).val) (BitVec.ofNat 8 (0 : Fin 32).val) ∧
    Instr.neq 31 0 = .neq (BitVec.ofNat 8 (31 : Fin 32).val) (BitVec.ofNat 8 (0 : Fin 32).val) ∧
    Instr.gt 31 0 = .gt (BitVec.ofNat 8 (31 : Fin 32).val) (BitVec.ofNat 8 (0 : Fin 32).val) ∧
    Instr.gte 31 0 = .gte (BitVec.ofNat 8 (31 : Fin 32).val) (BitVec.ofNat 8 (0 : Fin 32).val) ∧
    Instr.lt 31 0 = .lt (BitVec.ofNat 8 (31 : Fin 32).val) (BitVec.ofNat 8 (0 : Fin 32).val) ∧
    Instr.lte 31 0 = .lte (BitVec.ofNat 8 (31 : Fin 32).val) (BitVec.ofNat 8 (0 : Fin 32).val) := by decide

theorem witness_BadOperandsTrap :
    (∃ b ∈ (Instr.load 32 0 0).regBytes, 32 ≤ b.toNat) ∧ (∃ b ∈ (Instr.add 0 31 255).regBytes, 32 ≤ b.toNat) ∧
    (image12 [] 5 0).readReg 2 = 0 := by decide

/-- A sum that does not fit, and exact values at both ends of the range. -/
theorem witness_OverflowWraps :
    (2 ^ 31 ≤ ((image12 [] intMax 1).readReg 1).toInt + ((image12 [] intMax 1).readReg 2).toInt) ∧
    (((image12 [] intMax 0).readReg 1).toInt + ((image12 [] intMax 0).readReg 2).toInt = 2 ^ 31 - 1) ∧
    (((image12 [] intMin 0).readReg 1).toInt * ((image12 [] 1 1).readReg 2).toInt = -2 ^ 31) := by decide

theorem witness_DivisionLaws :
    (((image12 [] intMin (-1)).readReg 1).toInt = -2 ^ 31 ∧ ((image12 [] intMin (-1)).readReg 2).toInt = -1 ∧
      ((image12 [] intMin (-1)).readReg 2).toInt ≠ 0) ∧
    (¬(((image12 [] intMin 1).readReg 1).toInt = -2 ^ 31 ∧ ((image12 [] intMin 1).readReg 2).toInt = -1) ∧
      ((image12 [] intMin 1).readReg 2).toInt ≠ 0) ∧
    (next (image12 [0x04, 1, 2, 3] 7 (-2))).rem.toInt > 0 ∧
    (next (image12 [0x04, 1, 2, 3] (-7) (-2))).rem.toInt < 0 := by decide

theorem witness_ComparisonTruthTable :
    ((image12 [] intMin intMax).readReg 1).toInt < ((image12 [] intMin intMax).readReg 2).toInt ∧
    ((image12 [] 5 5).readReg 1).toInt = ((image12 [] 5 5).readReg 2).toInt ∧
    ((image12 [] 0 (-1)).readReg 1).toInt > ((image12 [] 0 (-1)).readReg 2).toInt := by decide

theorem witness_OutOfBoundsFetch :
    (image []).len.val ≤ (image []).pc.toNat ∧ (next (image [0x0E])).status = .halted ∧
    (image [0x01, 0, 1]).status = .running ∧ step (image [0x01, 0, 1]) = .next (next (image [0x01, 0, 1])) ∧
    (next (image [0x01, 0, 1])).faulted = true ∧ (next (image [0x01, 0, 1])).faultCause = 2 := by
  and_intros <;> first | decide | exact steps (by decide)

theorem witness_RegisterIndexFault :
    (image [0x04, 0, 1, 32]).faulted = false ∧
    decode ((image [0x04, 0, 1, 32]).bytesAt (image [0x04, 0, 1, 32]).pc 4) = .ok (.mod 0 1 32, []) ∧
    ∃ b ∈ (Instr.mod 0 1 32).regBytes, 32 ≤ b.toNat := by decide

/-- The clauses in order: no opcode byte, no such opcode, an operand missing, a bad index, a zero divisor, no fault. -/
theorem witness_FirstFailingCheckDecides :
    ((image []).faulted = false ∧ (image []).memRead (image []).pc = none) ∧
    (At (image [0x12]) 0x12 ∧ rowOfByte 0x12 = none) ∧
    (At (image [0x0F, 0x28, 0]) 0x0F ∧ rowOfByte 0x0F = some ⟨0x0F, .load, ['L', 'O', 'A', 'D'], .ri⟩ ∧
      (image [0x0F, 0x28, 0]).memRead ((image [0x0F, 0x28, 0]).pc + 1 + 2) = none) ∧
    (At (image [0x04, 0, 1, 0xC8]) 0x04 ∧ Follow (image [0x04, 0, 1, 0xC8]) [0, 1, 0xC8] ∧
      Instr.wellFormed (.mod 0 1 0xC8) = false) ∧
    (At (image [0x04, 0, 31, 31]) 0x04 ∧ Follow (image [0x04, 0, 31, 31]) [0, 31, 31] ∧
      Instr.wellFormed (.mod 0 31 31) = true ∧ regIndex 31 = some 31 ∧ (image [0x04, 0, 31, 31]).readReg 31 = 0) ∧
    (At (image [0x05, 0x1F]) 0x05 ∧ Follow (image [0x05, 0x1F]) [0x1F] ∧ Instr.wellFormed (.inc 0x1F) = true) := by
  unfold At Follow; decide

/-- One faulting cycle for each of the five cases. -/
theorem witness_FaultingCycleLeaves :
    ∀ s ∈ [image [], image [0x63], image [0x01, 0, 1], image [0x05, 32], image [0x04, 0, 1, 2]],
      s.faulted = false ∧ step s = .next (next s) ∧ (next s).faulted = true := by
  simp only [List.forall_mem_cons, List.not_mem_nil, false_imp_iff, implies_true, and_true]
  and_intros <;> first | decide | exact steps (by decide)

theorem witness_FaultedIsSticky : (next (image [0x63])).faulted = true := by decide

theorem witness_StepKeepsInv :
    (image [0x05, 0x1F]).Inv ∧ step (image [0x05, 0x1F]) = .next (next (image [0x05, 0x1F])) ∧
    (next (image [0x63])).Inv ∧ step (next (image [0x63])) = .next (next (image [0x63])) := by
  unfold State.Inv
  and_intros <;> first | decide | exact steps (by decide)

theorem witness_HostOperationsKeepInv : (image [0x01, 0x00, 0xFF]).Inv := by unfold State.Inv; decide

theorem witness_ImageIsReadOnly :
    step (image [0x0F, 5, 1, 0]) = .next (next (image [0x0F, 5, 1, 0])) := steps (by decide)

theorem witness_StepRunsDecodedInstruction :
    (image [0x0F, 31, 1, 255]).faulted = false ∧
    decode ((image [0x0F, 31, 1, 255]).bytesAt (image [0x0F, 31, 1, 255]).pc 4) = .ok (.load 31 1 255, []) := by decide

/-- One cycle of each length, and a jump. -/
theorem witness_PcAfterCompletedCycle :
    ∀ s ∈ [image [0x0D], image [0x05, 31], image [0x0C, 0, 31], image [0x0F, 0, 255, 255], image [0x10, 31]],
      s.faulted = false ∧ step s = .next (next s) ∧ (next s).faulted = false := by
  simp only [List.forall_mem_cons, List.not_mem_nil, false_imp_iff, implies_true, and_true]
  and_intros <;> first | decide | exact steps (by decide)

theorem witness_PcMovesForwardInsideImage :
    (image [0x01, 0, 1]).status = .running ∧ (image [0x01, 0, 1]).memRead (image [0x01, 0, 1]).pc ≠ some 0x10 ∧
    step (image [0x01, 0, 1]) = .next (next (image [0x01, 0, 1])) := by
  and_intros <;> first | decide | exact steps (by decide)

theorem witness_FlagIsWrittenByComparisonsAndReadByNone :
    step (image [0x07, 3, 3]) = .next (next (image [0x07, 3, 3])) ∧
    (next (image [0x07, 3, 3])).flag ≠ (image [0x07, 3, 3]).flag ∧
    step (image [0x0C, 3, 3]) = .next (next (image [0x0C, 3, 3])) ∧
    (next (image [0x0C, 3, 3])).flag ≠ (image [0x0C, 3, 3]).flag := by
  and_intros <;> first | decide | exact steps (by decide)

theorem witness_RemIsWrittenByModAndReadByModr :
    step (image12 [0x04, 1, 2, 3] 7 2) = .next (next (image12 [0x04, 1, 2, 3] 7 2)) ∧
    (next (image12 [0x04, 1, 2, 3] 7 2)).rem ≠ (image12 [0x04, 1, 2, 3] 7 2).rem ∧
    (image12 [0x04, 1, 2, 3] 7 2).memRead (image12 [0x04, 1, 2, 3] 7 2).pc ≠ some 0x11 := by
  and_intros <;> first | decide | exact steps (by decide)

theorem witness_OnlyTheDestinationRegisterChanges :
    step (image [0x05, 31]) = .next (next (image [0x05, 31])) ∧
    (next (image [0x05, 31])).readReg 31 ≠ (image [0x05, 31]).readReg 31 ∧
    step (image12 [0x01, 1, 2, 0] 1 2) = .next (next (image12 [0x01, 1, 2, 0] 1 2)) ∧
    (next (image12 [0x01, 1, 2, 0] 1 2)).readReg 0 ≠ (image12 [0x01, 1, 2, 0] 1 2).readReg 0 := by
  and_intros <;> first | decide | exact steps (by decide)

/-- A one-byte image and the empty one. -/
theorem witness_StatusAfterReset : 0 < (next (image [0x63])).len.val ∧ (image []).len.val = 0 := by decide

theorem witness_ResetOperation :
    (next (image [0x63])).faulted = true ∧ (hostOp .reset (next (image [0x63]))).1.faulted = false := by decide

/-- Addresses `L` and `L - 1`, and two states that share an image. -/
theorem witness_ReadPort :
    (image [0x0E]).len.val ≤ (1 : Word).toNat ∧ (0 : Word).toNat < (image [0x0E]).len.val ∧
    (image [0x0E]).imem = (next (image [0x0E])).imem ∧ (image [0x0E]).len = (next (image [0x0E])).len := by decide

theorem witness_FetchReadsThenAdvances :
    (image [0x0E]).memRead (image [0x0E]).pc = some 0x0E ∧
    (next (image [0x0E])).memRead (next (image [0x0E])).pc = none := by decide

theorem witness_LoadedImageIsRead : boot [0x0E, 0x00] = some (image [0x0E, 0x00]) := by decide

theorem witness_RunCyclesWhileRunning :
    (image []).status ≠ .running ∧ (next (image [0x63])).status ≠ .running ∧
    ((image [0x0E]).status = .running ∧ cycle (image [0x0E]) = .next (next (image [0x0E]))) ∧
    (image [0x0E]).RunEnds (next (image [0x0E])) ∧ boot [] = some (image []) :=
  ⟨by decide, by decide, ⟨by decide, (steps (s := image [0x0E]) (by decide) : _)⟩, ⟨1, by decide, by decide⟩, by decide⟩

/-- The same end reached with two amounts of fuel. -/
theorem witness_RunEndIsUnique :
    (image [0x0E, 0x63]).RunEnds ((image [0x0E, 0x63]).runFor 2) ∧
    (image [0x0E, 0x63]).RunEnds ((image [0x0E, 0x63]).runFor 5) :=
  ⟨⟨2, rfl, by decide⟩, ⟨5, rfl, by decide⟩⟩

theorem witness_StepsWhileRunningAreRun :
    ∀ k, k < 2 → ((image [0x0E, 0x0E]).runFor k).status = .running := by decide

theorem witness_NormalEndMeansNoFaultOnTheWay :
    (image [0x0E, 0x0D]).RunEnds ((image [0x0E, 0x0D]).runFor 2) ∧ ((image [0x0E, 0x0D]).runFor 2).NormalEnd :=
  ⟨⟨2, rfl, by decide⟩, ⟨by decide, by decide⟩⟩

theorem witness_StepOperation :
    (next (image [0x63])).faulted = true ∧ (image [0x0E]).faulted = false ∧ (image []).status = .halted := by decide

/-- `SetPC` to `L - 1` and to `L`. -/
theorem witness_SetPcOperation :
    (next (image [0x63])).faulted = true ∧ (image [0x0E]).faulted = false ∧
    (0 : Word).toNat < (image [0x0E]).len.val ∧ (image [0x0E]).len.val ≤ (1 : Word).toNat ∧
    (hostOp .step (image [0x05, 31])).1.regs ≠ (image [0x05, 31]).regs := by decide

/-- One document with a failing line and one without. -/
theorem witness_LexingIsBatchOrNothing :
    lexLine 2 ['F', 'O', 'O'] = .error (.invalidLine 2) ∧
    lexLine 1 ['I', 'N', 'C', ' ', '$', '1'] = .ok (some (.inc, [.registerRef 1])) := by decide

end Sys2Proof.Tests
end

/-! # Bad operands trap (R13, R123, R124) -/

namespace Sys2Proof.Machine

/-! ## Bad and good register-index bytes -/

/-- The programmer's rule of R164 is broken exactly by a register-index byte of 32 or more (R13). -/
theorem not_wellFormed_iff (i : Instr) : i.wellFormed = false ↔ ∃ b ∈ i.regBytes, 32 ≤ b.toNat := by
  simp [Instr.wellFormed, validIndex]

@[simp] theorem regIndex_ofNat (i : Fin Config.nreg) : regIndex (BitVec.ofNat 8 i.val) = some i := by
  have hi : i.val < 32 := i.isLt
  rw [regIndex_eq_some, BitVec.toNat_ofNat]
  omega

@[simp] theorem withRegs3_ofNat (s : State) (a b d : Fin Config.nreg)
    (k : Fin Config.nreg → Fin Config.nreg → Fin Config.nreg → State) :
    withRegs3 s (BitVec.ofNat 8 a.val) (BitVec.ofNat 8 b.val) (BitVec.ofNat 8 d.val) k = k a b d := by
  simp only [withRegs3, regIndex_ofNat]

/-! ## The two traps -/

/-- Of the eight endings of a meaning, a bad register-index byte leaves only `badIndex`: the other seven are endings of
instructions whose register bytes are all below 32. -/
theorem Effect.eq_raise_of_not_wellFormed {s t : State} {i : Instr} (he : Effect s i t)
    (hw : i.wellFormed = false) : t = s.raise .registerIndex := by
  cases he with
  | badIndex => rfl
  | nothing hi => obtain rfl | rfl := hi <;> cases hw
  | zeroDivisor h => simp [h] at hw
  | threeRegs _ h => simp [h] at hw
  | oneReg _ h => simp [h] at hw
  | comparison _ h => simp [h] at hw
  | jump h => simp [h] at hw
  | division h => simp [h] at hw

theorem exec_of_not_wellFormed {i : Instr} (s : State) (hw : i.wellFormed = false) :
    exec i s = .next (s.raise .registerIndex) := by
  obtain ⟨t, ht, he⟩ := exec_effect i s
  rw [ht, he.eq_raise_of_not_wellFormed hw]

theorem exec_mod_ofNat (s : State) (a b d : Fin Config.nreg) :
    exec (.mod (BitVec.ofNat 8 a.val) (BitVec.ofNat 8 b.val) (BitVec.ofNat 8 d.val)) s =
      .next (s.divide a b d) := by
  simp only [exec, execMod, withRegs3_ofNat]

theorem State.divide_of_zero (s : State) (a : Fin Config.nreg) {b : Fin Config.nreg} (d : Fin Config.nreg)
    (hb : s.readReg b = 0) : s.divide a b d = s.raise .divideByZero := by
  have hz : sval (s.readReg b) = 0 := by rw [hb]; rfl
  obtain ⟨-, e⟩ | ⟨hnz, -⟩ := s.divide_cases a b d
  · exact e
  · exact absurd hz hnz

/-- Settles O18: a bad index byte by the endings of `exec_effect`, a zero divisor by those of `State.divide_cases`. -/
theorem badOperandsTrap : Obligations.BadOperandsTrap := by
  unfold Obligations.BadOperandsTrap
  refine ⟨fun s i hbad => ?_, fun s a b d hb => ?_⟩
  · exact exec_of_not_wellFormed s ((not_wellFormed_iff i).mpr hbad)
  · rw [exec_mod_ofNat, s.divide_of_zero a d hb]

end Sys2Proof.Machine

/-! # The Program Image is read-only (R32) -/

namespace Sys2Proof.Machine

/-! ## What a faulting fetch changes -/

/-- A fetch that faults has moved `pc` (not at all, at a missing opcode byte) and entered the fault. -/
theorem State.eq_raise_of_fetchInstr_raised {s t : State} (h : s.fetchInstr = .raised t) :
    ∃ v c, t = (s.writePc v).raise c := by
  obtain ⟨-, e⟩ | ⟨b, -, -, e⟩ | ⟨b, row, k, -, -, -, -, -, e⟩ | ⟨b, row, ops, -, -, -, -, e⟩ := s.fetchInstr_cases <;>
    rw [e] at h <;> cases h
  · exact ⟨s.pc, _, by rw [State.writePc_self]⟩
  · exact ⟨_, _, rfl⟩
  · exact ⟨_, _, rfl⟩

/-! ## What every step keeps, every host operation made of steps keeps -/

/-- A turn of `Run` (R155) leaves the block alone or is a step. -/
theorem State.runTurn_cases (s : State) : s.runTurn = s ∨ step s = .next s.runTurn := by
  cases hs : s.status with
  | halted => exact .inl (by simp only [State.runTurn, hs])
  | faulted => exact .inl (by simp only [State.runTurn, hs])
  | running =>
    have hf : s.faulted = false := by
      cases hf : s.faulted with
      | false => rfl
      | true => simp [State.status, hf] at hs
    rw [step_of_not_faulted hf]
    cases hc : cycle s with
    | next t => exact .inr (by simp only [State.runTurn, hs, hc])
    | fault f => exact .inl (by simp only [State.runTurn, hs, hc])
    | refused r => exact .inl (by simp only [State.runTurn, hs, hc])

/-- The host's `Step` (R154) leaves the block alone or is a step. -/
theorem State.hostStep_cases (s : State) : s.hostStep.1 = s ∨ step s = .next s.hostStep.1 := by
  cases h : step s with
  | next t => exact .inr (by simp only [State.hostStep, h])
  | fault f => exact .inl (by simp only [State.hostStep, h])
  | refused r => exact .inl (by simp only [State.hostStep, h])

section Preservation
variable {P : State → Prop} (hstep : ∀ s t, step s = .next t → P s → P t)
include hstep

theorem State.runTurn_preserves {s : State} (hs : P s) : P s.runTurn := by
  obtain e | e := s.runTurn_cases
  · rwa [e]
  · exact hstep _ _ e hs

/-- The induction over a run: what every step keeps holds after any number of cycles. -/
theorem State.runFor_preserves (fuel : Nat) {s : State} (hs : P s) : P (s.runFor fuel) := by
  induction fuel generalizing s with
  | zero => exact hs
  | succ fuel ih => exact ih (State.runTurn_preserves hstep hs)

theorem State.hostStep_preserves {s : State} (hs : P s) : P s.hostStep.1 := by
  obtain e | e := s.hostStep_cases
  · rwa [e]
  · exact hstep _ _ e hs

/-- What every step, `Reset` and a write of `pc` keep, every host operation keeps. -/
theorem hostOp_preserves (hreset : ∀ s, P s → P s.hostReset) (hpc : ∀ s v, P s → P (s.writePc v))
    (op : HostOp) {s : State} (hs : P s) : P (hostOp op s).1 := by
  cases op with
  | reset => exact hreset s hs
  | step => exact State.hostStep_preserves hstep hs
  | run fuel => exact State.runFor_preserves hstep fuel hs
  | setPC v =>
    simp only [hostOp, State.setPC]
    split
    · exact hs
    · exact hpc s v hs
  | readReg i => exact hs
  | readAllRegs => exact hs
  | readState => exact hs

end Preservation

/-! ## The image and its length -/

/-- The two states hold the same Program Image: the same bytes and the same length (R31). -/
def State.SameImage (s t : State) : Prop := t.imem = s.imem ∧ t.len = s.len

/-- The read port depends on nothing but the image and its length (R33). -/
theorem State.SameImage.memRead_eq {s t : State} (h : s.SameImage t) (k : Word) : t.memRead k = s.memRead k := by
  obtain ⟨himem, hlen⟩ := h
  simp only [State.memRead, himem, hlen]

theorem State.SameImage.refl (s : State) : s.SameImage s := ⟨rfl, rfl⟩

theorem State.SameImage.trans {s t u : State} (hst : s.SameImage t) (htu : t.SameImage u) : s.SameImage u :=
  ⟨htu.1.trans hst.1, htu.2.trans hst.2⟩

theorem State.sameImage_writePc (s : State) (v : Word) : s.SameImage (s.writePc v) := ⟨rfl, rfl⟩

theorem State.sameImage_raise (s : State) (c : FaultCause) : s.SameImage (s.raise c) := ⟨rfl, rfl⟩

theorem State.sameImage_hostReset (s : State) : s.SameImage s.hostReset := ⟨rfl, rfl⟩

/-- None of the eight endings of a meaning stores: there is no store instruction (R32). -/
theorem Effect.sameImage {s t : State} {i : Instr} (he : Effect s i t) : s.SameImage t := by
  cases he with
  | badIndex => exact s.sameImage_raise _
  | zeroDivisor => exact s.sameImage_raise _
  | nothing => exact .refl s
  | threeRegs => exact ⟨rfl, rfl⟩
  | oneReg => exact ⟨rfl, rfl⟩
  | comparison => exact ⟨rfl, rfl⟩
  | jump => exact s.sameImage_writePc _
  | division => exact ⟨rfl, rfl⟩

theorem step_sameImage {s t : State} (h : step s = .next t) : s.SameImage t := by
  obtain ⟨-, rfl⟩ | ⟨-, hf⟩ | ⟨-, i, u, hf, he⟩ := step_inversion h
  · exact .refl t
  · obtain ⟨v, c, rfl⟩ := State.eq_raise_of_fetchInstr_raised hf
    exact (s.sameImage_writePc v).trans (State.sameImage_raise _ c)
  · obtain ⟨-, rfl⟩ := State.fetchInstr_got_iff.mp hf
    exact (s.sameImage_writePc _).trans he.sameImage

theorem hostOp_sameImage (op : HostOp) (s : State) : s.SameImage (hostOp op s).1 :=
  hostOp_preserves (P := s.SameImage) (fun _ _ h hs => hs.trans (step_sameImage h))
    (fun t hs => hs.trans t.sameImage_hostReset) (fun t v hs => hs.trans (t.sameImage_writePc v)) op (.refl s)

/-- Settles O31: steps by the endings of `step_inversion`, host operations by `hostOp_preserves`. -/
theorem imageIsReadOnly : Obligations.ImageIsReadOnly := by
  unfold Obligations.ImageIsReadOnly
  refine ⟨fun s t h => ?_, fun op s => ?_⟩
  · have hsame := step_sameImage h
    exact ⟨hsame.1, hsame.2, hsame.memRead_eq⟩
  · have hsame := hostOp_sameImage op s
    exact ⟨hsame.1, hsame.2, hsame.memRead_eq⟩

end Sys2Proof.Machine

/-! # Invalid opcode bytes (R57, R121) -/

namespace Sys2Proof

/-- A byte without a row is one that is none of the table's numbers (R57). -/
theorem rowOfByte_eq_none_iff_not_mem (b : Byte) :
    rowOfByte b = none ↔ b.toNat ∉ instructionTable.map (fun row => row.number.toNat) := by
  simp only [rowOfByte, List.find?_eq_none, beq_iff_eq, List.mem_map, not_exists, not_and, BitVec.toNat_inj]

/-- The numbers of the table run from 1 to 17 (R56), so a byte without a row lies outside that range. -/
theorem rowOfByte_eq_none_iff (b : Byte) : rowOfByte b = none ↔ b.toNat = 0 ∨ 18 ≤ b.toNat := by
  rw [rowOfByte_eq_none_iff_not_mem, table_numbers, List.mem_range'_1]
  omega

theorem isNone_rowOfByte_ofNat {n : Nat} (hn : n < 256) :
    (rowOfByte (BitVec.ofNat 8 n)).isNone = decide (n = 0 ∨ 18 ≤ n) := by
  have hval : (BitVec.ofNat 8 n).toNat = n := by rw [BitVec.toNat_ofNat, Nat.mod_eq_of_lt hn]
  rw [Bool.eq_iff_iff, Option.isNone_iff_eq_none, rowOfByte_eq_none_iff, hval, decide_eq_true_iff]

/-- The count of R57: the byte 0, then none of the 17 numbers of the table, then all 238 bytes above them. -/
theorem length_filter_isNone_rowOfByte :
    ((List.range 256).filter fun n => (rowOfByte (BitVec.ofNat 8 n)).isNone).length = 239 := by
  have hsplit : List.range 256 = List.range' 0 1 ++ List.range' 1 17 ++ List.range' 18 238 := by
    rw [List.range_eq_range', List.range'_append_1, List.range'_append_1]
  have hnumbers : (List.range' 1 17).filter (fun n => decide (n = 0 ∨ 18 ≤ n)) = [] := by decide
  have habove : (List.range' 18 238).filter (fun n => decide (n = 0 ∨ 18 ≤ n)) = List.range' 18 238 :=
    List.filter_eq_self.mpr fun n hn => by simp [(List.mem_range'_1.mp hn).1]
  rw [List.filter_congr fun n hn => isNone_rowOfByte_ofNat (List.mem_range.mp hn), hsplit, List.filter_append,
    List.filter_append, hnumbers, habove, List.length_append, List.length_range']
  rfl

namespace Machine

theorem FaultCause.code_eq_one_iff (c : FaultCause) : c.code = 1 ↔ c = .invalidOpcode := by
  cases c <;> decide

/-! ## A byte without a row raises `InvalidOpcode` -/

theorem State.fetchInstr_of_no_row {s : State} {b : Byte} (hb : s.memRead s.pc = some b)
    (hr : rowOfByte b = none) : s.fetchInstr = .raised ((s.writePc (s.pc + 1)).raise .invalidOpcode) := by
  have hf : s.fetch = .got b (s.writePc (s.pc + 1)) := by simp only [State.fetch, hb]
  simp only [State.fetchInstr, hf, hr]

theorem step_of_no_row {s : State} {b : Byte} (hs : s.faulted = false) (hb : s.memRead s.pc = some b)
    (hr : rowOfByte b = none) : step s = .next ((s.writePc (s.pc + 1)).raise .invalidOpcode) := by
  rw [step_of_not_faulted hs, cycle_of_raised (State.fetchInstr_of_no_row hb hr)]

/-! ## Nothing else raises `InvalidOpcode` -/

/-- Of the eight endings of a meaning only two enter a fault, and neither fault is `InvalidOpcode` (R123, R124). -/
theorem Effect.eq_raise_of_faulted {s t : State} {i : Instr} (he : Effect s i t) (hs : s.faulted = false)
    (ht : t.faulted = true) : ∃ c, c ≠ .invalidOpcode ∧ t = s.raise c := by
  have hne : t.faulted ≠ s.faulted := by simp [hs, ht]
  cases he with
  | badIndex => exact ⟨.registerIndex, by decide, rfl⟩
  | zeroDivisor => exact ⟨.divideByZero, by decide, rfl⟩
  | nothing | threeRegs | oneReg | comparison | jump | division => exact absurd rfl hne

/-- Past a byte that has a row, a fetch can only run out of the image (R122). -/
theorem State.eq_raise_of_fetchInstr_raised_of_row {s t : State} {b : Byte} {row : Row}
    (hb : s.memRead s.pc = some b) (hr : rowOfByte b = some row) (hf : s.fetchInstr = .raised t) :
    ∃ v, t = (s.writePc v).raise .imageOutOfBounds := by
  obtain ⟨hb', -⟩ | ⟨b', hb', hr', -⟩ | ⟨_, _, _, _, _, _, _, _, e⟩ |
    ⟨_, _, _, _, _, _, _, e⟩ := s.fetchInstr_cases
  · simp [hb] at hb'
  · obtain rfl : b = b' := by simpa [hb] using hb'
    simp [hr] at hr'
  · rw [e] at hf
    cases hf
    exact ⟨_, rfl⟩
  · rw [e] at hf
    cases hf

/-- A step at a byte that has a row, when it ends in a fault, ends in one of the other three. -/
theorem eq_raise_of_step_of_row {s t : State} {b : Byte} {row : Row} (hs : s.faulted = false)
    (hb : s.memRead s.pc = some b) (hr : rowOfByte b = some row) (h : step s = .next t) (ht : t.faulted = true) :
    ∃ v c, c ≠ .invalidOpcode ∧ t = (s.writePc v).raise c := by
  obtain ⟨hs', -⟩ | ⟨-, hf⟩ | ⟨-, i, u, hf, he⟩ := step_inversion h
  · simp [hs] at hs'
  · obtain ⟨v, rfl⟩ := State.eq_raise_of_fetchInstr_raised_of_row hb hr hf
    exact ⟨v, .imageOutOfBounds, by decide, rfl⟩
  · obtain ⟨-, rfl⟩ := State.fetchInstr_got_iff.mp hf
    obtain ⟨c, hc, rfl⟩ := he.eq_raise_of_faulted hs ht
    exact ⟨_, c, hc, rfl⟩

/-- Settles O5: the bytes by the table's numbers, the two steps by whether the byte at `pc` has a row. -/
theorem invalidOpcodeBytes : Obligations.InvalidOpcodeBytes := by
  unfold Obligations.InvalidOpcodeBytes
  refine ⟨rowOfByte_eq_none_iff, length_filter_isNone_rowOfByte, fun s b hs hb hbyte => ?_,
    fun s t b hs hb hlo hhi h ht => ?_⟩
  · exact step_of_no_row hs hb ((rowOfByte_eq_none_iff b).mpr hbyte)
  · have hrow : rowOfByte b ≠ none := by
      rw [Ne, rowOfByte_eq_none_iff]
      omega
    obtain ⟨row, hr⟩ := Option.ne_none_iff_exists'.mp hrow
    obtain ⟨v, c, hc, rfl⟩ := eq_raise_of_step_of_row hs hb hr h ht
    rwa [State.raise_faultCause, Ne, FaultCause.code_eq_one_iff]

end Machine

end Sys2Proof

/-! # Whole cycles of the arithmetic instructions (R81 to R86, R123, R124) -/

namespace Sys2Proof.Machine

/-! ## Register-index bytes of the formats RRR and R -/

theorem regBytes_build_rrr {o : Opcode} (h : formatOf o = .rrr) (a b d : Byte) :
    (build o [a, b, d]).regBytes = [a, b, d] := by
  cases o with
  | add | sub | mul | mod => rfl
  | _ => cases h

theorem regBytes_build_r {o : Opcode} (h : formatOf o = .r) (r : Byte) : (build o [r]).regBytes = [r] := by
  cases o with
  | inc | dec | jmp | modr => rfl
  | _ => cases h

/-! ## A step at a byte that has a row

The three ends of a cycle whose opcode byte is in the table, for any instruction of a format: performing the instruction
that was fetched, a bad register index, a missing operand byte. -/

section StepAtRow

variable {s : State} {op : Byte} {row : Row}

/-- All the operand bytes are in the image: the step performs the instruction, from `pc` just past it (R125). -/
theorem step_of_operands {ops : List Byte} (hs : s.faulted = false) (hop : s.memRead s.pc = some op)
    (hr : rowOfByte op = some row) (hl : ops.length = row.format.arity)
    (ho : ∀ j, (h : j < ops.length) → s.memRead (s.pc + BitVec.ofNat 32 (j + 1)) = some ops[j]) :
    step s = exec (build row.opcode ops) (s.writePc (s.pc + BitVec.ofNat 32 (row.format.arity + 1))) := by
  rw [step_of_not_faulted hs, cycle_of_got (State.fetchInstr_of_reads hop hr hl ho)]

/-- Operand byte number `k` is the first one missing (R122). -/
theorem step_of_missing_operand {k : Nat} (hs : s.faulted = false) (hop : s.memRead s.pc = some op)
    (hr : rowOfByte op = some row) (hk : k < row.format.arity)
    (ho : ∀ j, j < k → s.memRead (s.pc + 1 + BitVec.ofNat 32 j) ≠ none)
    (hn : s.memRead (s.pc + 1 + BitVec.ofNat 32 k) = none) :
    step s = .next ((s.writePc (s.pc + 1 + BitVec.ofNat 32 k)).raise .imageOutOfBounds) := by
  simp only [add_one_add_ofNat] at ho hn ⊢
  rw [step_of_not_faulted hs, cycle_of_raised (State.fetchInstr_of_missing hop hr hk ho hn)]

theorem step_of_rrr {a b d : Byte} (hs : s.faulted = false) (hop : s.memRead s.pc = some op)
    (hr : rowOfByte op = some row) (hf : row.format = .rrr) (ha : s.memRead (s.pc + 1) = some a)
    (hb : s.memRead (s.pc + 2) = some b) (hd : s.memRead (s.pc + 3) = some d) :
    step s = exec (build row.opcode [a, b, d]) (s.writePc (s.pc + 4)) := by
  have ho : ∀ j, (h : j < [a, b, d].length) → s.memRead (s.pc + BitVec.ofNat 32 (j + 1)) = some [a, b, d][j]
    | 0, _ => ha
    | 1, _ => hb
    | 2, _ => hd
  have hstep := step_of_operands hs hop hr (by rw [hf]; rfl) ho
  rwa [hf] at hstep

theorem step_of_r {r : Byte} (hs : s.faulted = false) (hop : s.memRead s.pc = some op)
    (hr : rowOfByte op = some row) (hf : row.format = .r) (hb : s.memRead (s.pc + 1) = some r) :
    step s = exec (build row.opcode [r]) (s.writePc (s.pc + 2)) := by
  have ho : ∀ j, (h : j < [r].length) → s.memRead (s.pc + BitVec.ofNat 32 (j + 1)) = some [r][j]
    | 0, _ => hb
  have hstep := step_of_operands hs hop hr (by rw [hf]; rfl) ho
  rwa [hf] at hstep

/-- Some register byte of a format RRR instruction names no register (R123). -/
theorem step_of_rrr_of_bad_index {a b d : Byte} (hs : s.faulted = false) (hop : s.memRead s.pc = some op)
    (hr : rowOfByte op = some row) (hf : row.format = .rrr) (ha : s.memRead (s.pc + 1) = some a)
    (hb : s.memRead (s.pc + 2) = some b) (hd : s.memRead (s.pc + 3) = some d)
    (hbad : 32 ≤ a.toNat ∨ 32 ≤ b.toNat ∨ 32 ≤ d.toNat) :
    step s = .next ((s.writePc (s.pc + 4)).raise .registerIndex) := by
  have hw : (build row.opcode [a, b, d]).wellFormed = false := by
    rw [not_wellFormed_iff, regBytes_build_rrr ((opcodeByte_of_row hr).2.symm.trans hf)]
    simpa using hbad
  rw [step_of_rrr hs hop hr hf ha hb hd, exec_of_not_wellFormed _ hw]

/-- The register byte of a format R instruction names no register (R123). -/
theorem step_of_r_of_bad_index {r : Byte} (hs : s.faulted = false) (hop : s.memRead s.pc = some op)
    (hr : rowOfByte op = some row) (hf : row.format = .r) (hb : s.memRead (s.pc + 1) = some r)
    (hbad : 32 ≤ r.toNat) : step s = .next ((s.writePc (s.pc + 2)).raise .registerIndex) := by
  have hw : (build row.opcode [r]).wellFormed = false := by
    rw [not_wellFormed_iff, regBytes_build_r ((opcodeByte_of_row hr).2.symm.trans hf)]
    simpa using hbad
  rw [step_of_r hs hop hr hf hb, exec_of_not_wellFormed _ hw]

/-- The operand byte of a format R instruction is missing (R122). -/
theorem step_of_r_of_missing (hs : s.faulted = false) (hop : s.memRead s.pc = some op)
    (hr : rowOfByte op = some row) (hf : row.format = .r) (hn : s.memRead (s.pc + 1) = none) :
    step s = .next ((s.writePc (s.pc + 1)).raise .imageOutOfBounds) := by
  have hk : 0 < row.format.arity := by rw [hf]; decide
  simpa using step_of_missing_operand hs hop hr hk (by simp) (by simpa using hn)

end StepAtRow

/-! ## The meanings on valid register bytes -/

@[simp] theorem withReg_ofNat (s : State) (r : Fin Config.nreg) (k : Fin Config.nreg → State) :
    withReg s (BitVec.ofNat 8 r.val) k = k r := by
  simp only [withReg, regIndex_ofNat]

theorem exec_add_ofNat (s : State) (a b d : Fin Config.nreg) :
    exec (.add (BitVec.ofNat 8 a.val) (BitVec.ofNat 8 b.val) (BitVec.ofNat 8 d.val)) s =
      .next (s.writeReg d (BitVec.ofInt 32 ((s.readReg a).toInt + (s.readReg b).toInt))) := by
  simp only [exec, execAdd, withRegs3_ofNat, State.combine_eq, wrap32, sval]

theorem exec_sub_ofNat (s : State) (a b d : Fin Config.nreg) :
    exec (.sub (BitVec.ofNat 8 a.val) (BitVec.ofNat 8 b.val) (BitVec.ofNat 8 d.val)) s =
      .next (s.writeReg d (BitVec.ofInt 32 ((s.readReg a).toInt - (s.readReg b).toInt))) := by
  simp only [exec, execSub, withRegs3_ofNat, State.combine_eq, wrap32, sval]

theorem exec_mul_ofNat (s : State) (a b d : Fin Config.nreg) :
    exec (.mul (BitVec.ofNat 8 a.val) (BitVec.ofNat 8 b.val) (BitVec.ofNat 8 d.val)) s =
      .next (s.writeReg d (BitVec.ofInt 32 ((s.readReg a).toInt * (s.readReg b).toInt))) := by
  simp only [exec, execMul, withRegs3_ofNat, State.combine_eq, wrap32, sval]

theorem exec_inc_ofNat (s : State) (r : Fin Config.nreg) :
    exec (.inc (BitVec.ofNat 8 r.val)) s =
      .next (s.writeReg r (BitVec.ofInt 32 ((s.readReg r).toInt + 1))) := by
  simp only [exec, execInc, withReg_ofNat, State.modify_eq, wrap32, sval]

theorem exec_dec_ofNat (s : State) (r : Fin Config.nreg) :
    exec (.dec (BitVec.ofNat 8 r.val)) s =
      .next (s.writeReg r (BitVec.ofInt 32 ((s.readReg r).toInt - 1))) := by
  simp only [exec, execDec, withReg_ofNat, State.modify_eq, wrap32, sval]

theorem State.divide_of_toInt_ne_zero (s : State) (a : Fin Config.nreg) {b : Fin Config.nreg}
    (d : Fin Config.nreg) (hb : (s.readReg b).toInt ≠ 0) :
    s.divide a b d =
      (s.writeReg d (BitVec.ofInt 32 (Int.tdiv (s.readReg a).toInt (s.readReg b).toInt))).writeRem
        (BitVec.ofInt 32 ((s.readReg a).toInt -
          Int.tdiv (s.readReg a).toInt (s.readReg b).toInt * (s.readReg b).toInt)) := by
  obtain ⟨hz, -⟩ | ⟨-, e⟩ := s.divide_cases a b d
  · exact absurd hz hb
  · simpa only [sval, wrap32, tdiv, trem] using e

/-! ## The cycles -/

/-- The bytes 01, 02 and 03 stand in rows of format RRR, and the meaning behind each writes the sum, the difference or
the product (R81 to R83). -/
theorem exists_rrr_row_of_addSubMul {op : Byte} {f : Int → Int → Int}
    (h : (op = 0x01 ∧ f = (fun m n => m + n)) ∨ (op = 0x02 ∧ f = (fun m n => m - n)) ∨
      (op = 0x03 ∧ f = (fun m n => m * n))) :
    ∃ row, rowOfByte op = some row ∧ row.format = .rrr ∧ ∀ (s : State) (a b d : Fin Config.nreg),
      exec (build row.opcode [BitVec.ofNat 8 a.val, BitVec.ofNat 8 b.val, BitVec.ofNat 8 d.val]) s =
        .next (s.writeReg d (BitVec.ofInt 32 (f (s.readReg a).toInt (s.readReg b).toInt))) := by
  obtain ⟨rfl, rfl⟩ | ⟨rfl, rfl⟩ | ⟨rfl, rfl⟩ := h
  · exact ⟨_, rfl, rfl, exec_add_ofNat⟩
  · exact ⟨_, rfl, rfl, exec_sub_ofNat⟩
  · exact ⟨_, rfl, rfl, exec_mul_ofNat⟩

/-- The bytes 05 and 06 stand in rows of format R, and the meaning behind each adds or subtracts 1 (R85, R86). -/
theorem exists_r_row_of_incDec {op : Byte} {f : Int → Int}
    (h : (op = 0x05 ∧ f = (fun n => n + 1)) ∨ (op = 0x06 ∧ f = (fun n => n - 1))) :
    ∃ row, rowOfByte op = some row ∧ row.format = .r ∧ ∀ (s : State) (r : Fin Config.nreg),
      exec (build row.opcode [BitVec.ofNat 8 r.val]) s =
        .next (s.writeReg r (BitVec.ofInt 32 (f (s.readReg r).toInt))) := by
  obtain ⟨rfl, rfl⟩ | ⟨rfl, rfl⟩ := h
  · exact ⟨_, rfl, rfl, exec_inc_ofNat⟩
  · exact ⟨_, rfl, rfl, exec_dec_ofNat⟩

/-- Settles O6: the three ends of a format RRR cycle, with the meaning of the row at the byte. -/
theorem addSubMulCycle : Obligations.AddSubMulCycle := by
  unfold Obligations.AddSubMulCycle
  intro s op f hop hs hm
  obtain ⟨row, hr, hf, hexec⟩ := exists_rrr_row_of_addSubMul hop
  refine ⟨fun a b d ha hb hd => ?_, fun a b d => step_of_rrr_of_bad_index hs hm hr hf,
    fun k hk => step_of_missing_operand hs hm hr (by rwa [hf])⟩
  rw [step_of_rrr hs hm hr hf ha hb hd, hexec, State.writePc_readReg, State.writePc_readReg]

/-- Settles O7: the three ends of a format RRR cycle, the first one split by the divisor. -/
theorem modCycle : Obligations.ModCycle := by
  unfold Obligations.ModCycle
  intro s hs hm
  have hr : rowOfByte 0x04 = some ⟨0x04, .mod, ['M', 'O', 'D'], .rrr⟩ := rfl
  refine ⟨fun a b d ha hb hd => ?_, fun a b d => step_of_rrr_of_bad_index hs hm hr rfl,
    fun k hk => step_of_missing_operand hs hm hr hk⟩
  have hstep : step s = .next ((s.writePc (s.pc + 4)).divide a b d) :=
    (step_of_rrr hs hm hr rfl ha hb hd).trans (exec_mod_ofNat _ a b d)
  refine ⟨fun hz => ?_, fun hz => ?_⟩
  · rw [hstep, (s.writePc (s.pc + 4)).divide_of_zero a d (BitVec.eq_of_toInt_eq hz)]
  · rw [hstep, (s.writePc (s.pc + 4)).divide_of_toInt_ne_zero a d hz, State.writePc_readReg, State.writePc_readReg]

/-- Settles O8: the three ends of a format R cycle, with the meaning of the row at the byte. -/
theorem incDecCycle : Obligations.IncDecCycle := by
  unfold Obligations.IncDecCycle
  intro s op f hop hs hm
  obtain ⟨row, hr, hf, hexec⟩ := exists_r_row_of_incDec hop
  refine ⟨fun r hb => ?_, fun r => step_of_r_of_bad_index hs hm hr hf, step_of_r_of_missing hs hm hr hf⟩
  rw [step_of_r hs hm hr hf hb, hexec, State.writePc_readReg]

end Sys2Proof.Machine

/-! # Whole cycles of the comparisons (R91 to R96, R123) -/

namespace Sys2Proof.Machine

/-! ## A step at a byte of format RR -/

theorem regBytes_build_rr {o : Opcode} (h : formatOf o = .rr) (a b : Byte) : (build o [a, b]).regBytes = [a, b] := by
  cases o with
  | eq | neq | gt | gte | lt | lte => rfl
  | _ => cases h

section StepAtRowRR

variable {s : State} {op : Byte} {row : Row} {a b : Byte}

theorem step_of_rr (hs : s.faulted = false) (hop : s.memRead s.pc = some op) (hr : rowOfByte op = some row)
    (hf : row.format = .rr) (ha : s.memRead (s.pc + 1) = some a) (hb : s.memRead (s.pc + 2) = some b) :
    step s = exec (build row.opcode [a, b]) (s.writePc (s.pc + 3)) := by
  have ho : ∀ j, (h : j < [a, b].length) → s.memRead (s.pc + BitVec.ofNat 32 (j + 1)) = some [a, b][j]
    | 0, _ => ha
    | 1, _ => hb
  have hstep := step_of_operands hs hop hr (by rw [hf]; rfl) ho
  rwa [hf] at hstep

/-- Some register byte of a format RR instruction names no register (R123). -/
theorem step_of_rr_of_bad_index (hs : s.faulted = false) (hop : s.memRead s.pc = some op)
    (hr : rowOfByte op = some row) (hf : row.format = .rr) (ha : s.memRead (s.pc + 1) = some a)
    (hb : s.memRead (s.pc + 2) = some b) (hbad : 32 ≤ a.toNat ∨ 32 ≤ b.toNat) :
    step s = .next ((s.writePc (s.pc + 3)).raise .registerIndex) := by
  have hw : (build row.opcode [a, b]).wellFormed = false := by
    rw [not_wellFormed_iff, regBytes_build_rr ((opcodeByte_of_row hr).2.symm.trans hf)]
    simpa using hbad
  rw [step_of_rr hs hop hr hf ha hb, exec_of_not_wellFormed _ hw]

end StepAtRowRR

/-! ## The meanings on valid register bytes -/

@[simp] theorem withRegs2_ofNat (s : State) (a b : Fin Config.nreg)
    (k : Fin Config.nreg → Fin Config.nreg → State) :
    withRegs2 s (BitVec.ofNat 8 a.val) (BitVec.ofNat 8 b.val) k = k a b := by
  simp only [withRegs2, regIndex_ofNat]

theorem exec_eq_ofNat (s : State) (a b : Fin Config.nreg) :
    exec (.eq (BitVec.ofNat 8 a.val) (BitVec.ofNat 8 b.val)) s =
      .next (s.writeFlag (flagEq (s.readReg a).toInt (s.readReg b).toInt)) := by
  simp only [exec, execEq, withRegs2_ofNat, State.compare_eq, sval]

theorem exec_neq_ofNat (s : State) (a b : Fin Config.nreg) :
    exec (.neq (BitVec.ofNat 8 a.val) (BitVec.ofNat 8 b.val)) s =
      .next (s.writeFlag (flagNeq (s.readReg a).toInt (s.readReg b).toInt)) := by
  simp only [exec, execNeq, withRegs2_ofNat, State.compare_eq, sval]

theorem exec_gt_ofNat (s : State) (a b : Fin Config.nreg) :
    exec (.gt (BitVec.ofNat 8 a.val) (BitVec.ofNat 8 b.val)) s =
      .next (s.writeFlag (flagGt (s.readReg a).toInt (s.readReg b).toInt)) := by
  simp only [exec, execGt, withRegs2_ofNat, State.compare_eq, sval]

theorem exec_gte_ofNat (s : State) (a b : Fin Config.nreg) :
    exec (.gte (BitVec.ofNat 8 a.val) (BitVec.ofNat 8 b.val)) s =
      .next (s.writeFlag (flagGte (s.readReg a).toInt (s.readReg b).toInt)) := by
  simp only [exec, execGte, withRegs2_ofNat, State.compare_eq, sval]

theorem exec_lt_ofNat (s : State) (a b : Fin Config.nreg) :
    exec (.lt (BitVec.ofNat 8 a.val) (BitVec.ofNat 8 b.val)) s =
      .next (s.writeFlag (flagLt (s.readReg a).toInt (s.readReg b).toInt)) := by
  simp only [exec, execLt, withRegs2_ofNat, State.compare_eq, sval]

theorem exec_lte_ofNat (s : State) (a b : Fin Config.nreg) :
    exec (.lte (BitVec.ofNat 8 a.val) (BitVec.ofNat 8 b.val)) s =
      .next (s.writeFlag (flagLte (s.readReg a).toInt (s.readReg b).toInt)) := by
  simp only [exec, execLte, withRegs2_ofNat, State.compare_eq, sval]

/-! ## The cycle -/

/-- The bytes 07 to 0C stand in rows of format RR, and the meaning behind each writes its signed relation to the flag,
the first operand on the left (R91 to R96). -/
theorem exists_rr_row_of_comparison {op : Byte} {f : Int → Int → Bool}
    (h : (op = 0x07 ∧ f = (fun m n => decide (m = n))) ∨ (op = 0x08 ∧ f = (fun m n => decide (m ≠ n))) ∨
      (op = 0x09 ∧ f = (fun m n => decide (m > n))) ∨ (op = 0x0A ∧ f = (fun m n => decide (m ≥ n))) ∨
      (op = 0x0B ∧ f = (fun m n => decide (m < n))) ∨ (op = 0x0C ∧ f = (fun m n => decide (m ≤ n)))) :
    ∃ row, rowOfByte op = some row ∧ row.format = .rr ∧ ∀ (s : State) (a b : Fin Config.nreg),
      exec (build row.opcode [BitVec.ofNat 8 a.val, BitVec.ofNat 8 b.val]) s =
        .next (s.writeFlag (f (s.readReg a).toInt (s.readReg b).toInt)) := by
  obtain ⟨rfl, rfl⟩ | ⟨rfl, rfl⟩ | ⟨rfl, rfl⟩ | ⟨rfl, rfl⟩ | ⟨rfl, rfl⟩ | ⟨rfl, rfl⟩ := h
  · exact ⟨_, rfl, rfl, exec_eq_ofNat⟩
  · exact ⟨_, rfl, rfl, exec_neq_ofNat⟩
  · exact ⟨_, rfl, rfl, exec_gt_ofNat⟩
  · exact ⟨_, rfl, rfl, exec_gte_ofNat⟩
  · exact ⟨_, rfl, rfl, exec_lt_ofNat⟩
  · exact ⟨_, rfl, rfl, exec_lte_ofNat⟩

/-- Settles O9: the three ends of a format RR cycle, with the meaning of the row at the byte. -/
theorem comparisonCycle : Obligations.ComparisonCycle := by
  unfold Obligations.ComparisonCycle
  intro s op f hop hs hm
  obtain ⟨row, hr, hf, hexec⟩ := exists_rr_row_of_comparison hop
  refine ⟨fun a b ha hb => ?_, fun a b => step_of_rr_of_bad_index hs hm hr hf,
    fun k hk => step_of_missing_operand hs hm hr (by rwa [hf])⟩
  rw [step_of_rr hs hm hr hf ha hb, hexec, State.writePc_readReg, State.writePc_readReg]

end Sys2Proof.Machine

/-! # Whole cycles of HLT, NOP, LOAD and JMP (R100 to R103, R123) -/

namespace Sys2Proof.Machine

/-! ## The status of a block that has not faulted -/

/-- The Halted status (R20): no fault, and `pc` at or past the end of the image. -/
theorem State.status_eq_halted_iff (s : State) :
    s.status = .halted ↔ s.faulted = false ∧ s.len.val ≤ s.pc.toNat := by
  unfold State.status
  split_ifs with hf hl
  · simp [hf]
  · simp [hf, hl]
  · simp [hl]

/-- The Running status (R20): no fault, and `pc` inside the image. -/
theorem State.status_eq_running_iff (s : State) :
    s.status = .running ↔ s.faulted = false ∧ s.pc.toNat < s.len.val := by
  unfold State.status
  split_ifs with hf hl
  · simp [hf]
  · simp [hl]
  · simp [hf, Nat.lt_of_not_le hl]

/-- Where `pc` is written without a fault, the target alone decides between Halted and Running. -/
theorem State.status_writePc_eq_halted_iff {s : State} (hs : s.faulted = false) (v : Word) :
    (s.writePc v).status = .halted ↔ s.len.val ≤ v.toNat := by
  simp [State.status_eq_halted_iff, hs]

theorem State.status_writePc_eq_running_iff {s : State} (hs : s.faulted = false) (v : Word) :
    (s.writePc v).status = .running ↔ v.toNat < s.len.val := by
  simp [State.status_eq_running_iff, hs]

/-- A negative value, taken as an address, is past the end of every image: `L` is below 2^31 (R31). -/
theorem State.len_le_toNat_of_toInt_neg (s : State) {v : Word} (hv : v.toInt < 0) : s.len.val ≤ v.toNat := by
  have hlen : s.len.val < 2147483648 := s.len.isLt
  have hneg : 2 ^ 32 ≤ 2 * v.toNat := BitVec.toInt_neg_iff.mp hv
  omega

/-! ## HLT and NOP -/

/-- The bytes 0D and 0E stand in rows of format Z, and the meaning behind each changes nothing (R100, R101). -/
theorem exists_z_row_of_hltNop {op : Byte} (h : op = 0x0D ∨ op = 0x0E) :
    ∃ row, rowOfByte op = some row ∧ row.format = .z ∧ ∀ s : State, exec (build row.opcode []) s = .next s := by
  obtain rfl | rfl := h
  · exact ⟨_, rfl, rfl, fun _ => rfl⟩
  · exact ⟨_, rfl, rfl, fun _ => rfl⟩

theorem step_of_z {s : State} {op : Byte} {row : Row} (hs : s.faulted = false) (hop : s.memRead s.pc = some op)
    (hr : rowOfByte op = some row) (hf : row.format = .z) :
    step s = exec (build row.opcode []) (s.writePc (s.pc + 1)) := by
  have hstep := step_of_operands (ops := []) hs hop hr (by rw [hf]; rfl) nofun
  rwa [hf] at hstep

/-- Settles O10: a format Z cycle whose meaning changes nothing; `pc` was inside the image, so its advance does not
wrap. -/
theorem hltNopCycle : Obligations.HltNopCycle := by
  unfold Obligations.HltNopCycle
  intro s op hop hs hm
  obtain ⟨row, hr, hf, hexec⟩ := exists_z_row_of_hltNop hop
  refine ⟨by rw [step_of_z hs hm hr hf, hexec], ?_⟩
  have hpc : s.pc.toNat < s.len.val := (State.memRead_eq_some.mp hm).1
  have hnext : (s.pc + 1).toNat = s.pc.toNat + 1 := State.toNat_succ_of_memRead hm
  rw [State.status_writePc_eq_halted_iff hs, hnext]
  omega

/-! ## LOAD -/

/-- LOAD's immediate is big-endian and zero-extended (R35, R102). -/
theorem zext32_imm16 (hi lo : Byte) : zext32 (imm16 hi lo) = BitVec.ofNat 32 (hi.toNat * 256 + lo.toNat) := by
  have happ : (hi ++ lo).toNat = hi.toNat * 256 + lo.toNat := by
    rw [BitVec.toNat_append, ← Nat.shiftLeft_add_eq_or_of_lt lo.isLt, Nat.shiftLeft_eq]
  apply BitVec.eq_of_toNat_eq
  rw [zext32, imm16, BitVec.toNat_setWidth, BitVec.toNat_ofNat, happ]

theorem exec_load_ofNat (s : State) (r : Fin Config.nreg) (hi lo : Byte) :
    exec (.load (BitVec.ofNat 8 r.val) hi lo) s =
      .next (s.writeReg r (BitVec.ofNat 32 (hi.toNat * 256 + lo.toNat))) := by
  simp only [exec, execLoad, withReg_ofNat, zext32_imm16]

/-- The three operand bytes of a LOAD are in the image. -/
theorem step_of_load {s : State} {r hi lo : Byte} (hs : s.faulted = false) (hop : s.memRead s.pc = some 0x0F)
    (hr : s.memRead (s.pc + 1) = some r) (hhi : s.memRead (s.pc + 2) = some hi)
    (hlo : s.memRead (s.pc + 3) = some lo) : step s = exec (.load r hi lo) (s.writePc (s.pc + 4)) := by
  have ho : ∀ j, (h : j < [r, hi, lo].length) → s.memRead (s.pc + BitVec.ofNat 32 (j + 1)) = some [r, hi, lo][j]
    | 0, _ => hr
    | 1, _ => hhi
    | 2, _ => hlo
  exact step_of_operands (row := ⟨0x0F, .load, ['L', 'O', 'A', 'D'], .ri⟩) hs hop rfl rfl ho

/-- Settles O11: the three ends of a format RI cycle; only the first operand byte is a register index. -/
theorem loadCycle : Obligations.LoadCycle := by
  unfold Obligations.LoadCycle
  intro s hs hm
  have hrow : rowOfByte 0x0F = some ⟨0x0F, .load, ['L', 'O', 'A', 'D'], .ri⟩ := rfl
  refine ⟨fun r hi lo hr hhi hlo => ?_, fun r hi lo hr hhi hlo hbad => ?_,
    fun k hk => step_of_missing_operand hs hm hrow hk⟩
  · rw [step_of_load hs hm hr hhi hlo, exec_load_ofNat]
  · have hw : (Instr.load r hi lo).wellFormed = false :=
      (not_wellFormed_iff _).mpr ⟨r, List.mem_singleton_self r, hbad⟩
    rw [step_of_load hs hm hr hhi hlo, exec_of_not_wellFormed _ hw]

/-! ## JMP -/

theorem exec_jmp_ofNat (s : State) (r : Fin Config.nreg) :
    exec (.jmp (BitVec.ofNat 8 r.val)) s = .next (s.writePc (s.readReg r)) := by
  simp only [exec, execJmp, withReg_ofNat]

/-- Settles O12: the three ends of a format R cycle; the status after a jump compares the target with `L` alone. -/
theorem jmpCycle : Obligations.JmpCycle := by
  unfold Obligations.JmpCycle
  intro s hs hm
  have hrow : rowOfByte 0x10 = some ⟨0x10, .jmp, ['J', 'M', 'P'], .r⟩ := rfl
  refine ⟨fun r hr => ?_, fun r => step_of_r_of_bad_index hs hm hrow rfl, step_of_r_of_missing hs hm hrow rfl⟩
  have hhalted := State.status_writePc_eq_halted_iff hs (s.readReg r)
  have hstep : step s = .next (s.writePc (s.readReg r)) :=
    (step_of_r hs hm hrow rfl hr).trans (exec_jmp_ofNat _ r)
  exact ⟨hstep, hhalted, State.status_writePc_eq_running_iff hs _,
    fun hneg => hhalted.mpr (s.len_le_toNat_of_toInt_neg hneg)⟩

end Sys2Proof.Machine

/-! # Faults (R122 to R126, R129) -/

namespace Sys2Proof

/-! ## Operand bytes -/

theorem Instr.length_eq (i : Instr) : i.length = i.operands.length + 1 := by
  rw [Instr.length, Format.length, operands_length, Nat.add_comm]

/-- The register-index bytes stand first among the operand bytes (R51); only LOAD has others. -/
theorem Instr.regBytes_subset_operands (i : Instr) : i.regBytes ⊆ i.operands := by
  cases i with
  | load r hi lo => exact List.subset_append_left [r] [hi, lo]
  | _ => exact List.Subset.refl _

namespace Machine

/-! ## Fault entry -/

theorem State.status_of_faulted {s : State} (hs : s.faulted = true) : s.status = .faulted := by
  simp only [State.status, hs, if_true]

/-- Settles O22: fault entry is the record update it is defined as, and a faulted block does not step. -/
theorem raiseIsFaultEntry : Obligations.RaiseIsFaultEntry := by
  unfold Obligations.RaiseIsFaultEntry
  refine ⟨rfl, rfl, rfl, rfl, fun s c => ?_⟩
  have hstatus : (s.raise c).status = .faulted := State.status_of_faulted (s.raise_faulted c)
  exact ⟨rfl, hstatus, by simp [hstatus], step_of_faulted (s.raise_faulted c)⟩

/-! ## A faulted block -/

section FaultedBlock

variable {s : State} (hs : s.faulted = true)
include hs

theorem eq_of_step_of_faulted {t : State} (h : step s = .next t) : t = s := by
  rw [step_of_faulted hs] at h
  cases h
  rfl

theorem State.hostStep_of_faulted : s.hostStep.1 = s := by
  obtain e | h := s.hostStep_cases
  · exact e
  · exact eq_of_step_of_faulted hs h

/-- Being the faulted state `s` is kept by every step, so it is kept by a run. -/
theorem State.runFor_of_faulted (fuel : Nat) : s.runFor fuel = s :=
  State.runFor_preserves (P := (· = s)) (fun _ _ h e => (eq_of_step_of_faulted (e ▸ hs) h).trans e) fuel rfl

theorem State.setPC_of_faulted (v : Word) : s.setPC v = (s, .refused .setPCWhileFaulted) := by
  simp only [State.setPC, hs, if_true]

theorem hostOp_of_faulted {op : HostOp} (hop : op ≠ .reset) : (hostOp op s).1 = s := by
  cases op with
  | reset => exact absurd rfl hop
  | step => exact State.hostStep_of_faulted hs
  | run fuel => exact State.runFor_of_faulted hs fuel
  | setPC v => exact congrArg Prod.fst (State.setPC_of_faulted hs v)
  | readReg | readAllRegs | readState => rfl

end FaultedBlock

theorem State.hostReadReg_of_lt (s : State) {i : Nat} (hi : i < 32) : s.hostReadReg i = .reg (s.readReg ⟨i, hi⟩) :=
  dif_pos hi

/-- Settles O27: one lemma for each operation of the host on a faulted block; the reset values are constants. -/
theorem faultedIsSticky : Obligations.FaultedIsSticky := by
  unfold Obligations.FaultedIsSticky
  intro s hs
  have hread : (hostOp .readState s).2 = .rest s.pc s.rem s.flag .faulted s.faultCause := by
    simp only [hostOp, State.status_of_faulted hs]
  exact ⟨step_of_faulted hs, State.runFor_of_faulted hs, fun _ => hostOp_of_faulted hs,
    fun v => congrArg Prod.snd (State.setPC_of_faulted hs v), fun _ => s.hostReadReg_of_lt, rfl, hread, rfl, rfl⟩

/-! ## The checks of an instruction whose bytes are fetched -/

theorem sval_eq_zero_iff (v : Word) : sval v = 0 ↔ v = 0 :=
  BitVec.toInt_inj (y := 0)

/-- The instruction is a MOD whose divisor register holds 0 in `s` (R124). -/
def DividesByZero (s : State) (i : Instr) : Prop :=
  ∃ x y z j, i = .mod x y z ∧ regIndex y = some j ∧ s.readReg j = 0

theorem dividesByZero_mod_iff (s : State) {a b d : Byte} {j : Fin Config.nreg} (hb : regIndex b = some j) :
    DividesByZero s (.mod a b d) ↔ sval (s.readReg j) = 0 := by
  rw [sval_eq_zero_iff]
  constructor
  · rintro ⟨x, y, z, k, hi, hk, hz⟩
    cases hi
    obtain rfl : j = k := Option.some.inj (hb.symm.trans hk)
    exact hz
  · exact fun hz => ⟨a, b, d, j, rfl, hb, hz⟩

/-- Steps 4 and 5 of R125: a bad register index, else a zero divisor, else no fault. -/
theorem Effect.checks {s t : State} {i : Instr} (he : Effect s i t) :
    (i.wellFormed = false ∧ t = s.raise .registerIndex) ∨
    (i.wellFormed = true ∧ DividesByZero s i ∧ t = s.raise .divideByZero) ∨
    (i.wellFormed = true ∧ ¬DividesByZero s i ∧ t.faulted = s.faulted) := by
  cases he with
  | badIndex hw => exact .inl ⟨hw, rfl⟩
  | zeroDivisor hw hb hz => exact .inr (.inl ⟨hw, (dividesByZero_mod_iff s hb).mpr hz, rfl⟩)
  | division hw hb hz => exact .inr (.inr ⟨hw, fun h => hz ((dividesByZero_mod_iff s hb).mp h), rfl⟩)
  | nothing hi => obtain rfl | rfl := hi <;> exact .inr (.inr ⟨rfl, nofun, rfl⟩)
  | threeRegs hi hw => obtain rfl | rfl | rfl := hi <;> exact .inr (.inr ⟨hw, nofun, rfl⟩)
  | oneReg hi hw => obtain rfl | rfl | rfl | rfl := hi <;> exact .inr (.inr ⟨hw, nofun, rfl⟩)
  | comparison hi hw => obtain rfl | rfl | rfl | rfl | rfl | rfl := hi <;> exact .inr (.inr ⟨hw, nofun, rfl⟩)
  | jump hw => exact .inr (.inr ⟨hw, nofun, rfl⟩)

/-- The faults of an instruction whose bytes are fetched are `RegisterIndex` and `DivideByZero`. -/
theorem Effect.eq_raise_index_or_divisor {s t : State} {i : Instr} (he : Effect s i t) (hs : s.faulted = false)
    (ht : t.faulted = true) : t = s.raise .registerIndex ∨ t = s.raise .divideByZero := by
  obtain ⟨-, e⟩ | ⟨-, -, e⟩ | ⟨-, -, e⟩ := he.checks
  · exact .inl e
  · exact .inr e
  · simp [hs, ht] at e

/-! ## Out-of-range fetches -/

theorem State.fetch_of_out_of_range {s : State} (h : s.memRead s.pc = none) :
    s.fetch = .raised (s.raise .imageOutOfBounds) := by
  simp only [State.fetch, h]

theorem step_of_no_opcode {s : State} (hs : s.faulted = false) (h : s.memRead s.pc = none) :
    step s = .next (s.raise .imageOutOfBounds) := by
  have hf : s.fetchInstr = .raised (s.raise .imageOutOfBounds) := by
    simp only [State.fetchInstr, State.fetch_of_out_of_range h]
  rw [step_of_not_faulted hs, cycle_of_raised hf]

/-- The image ends between a byte that can be read and a next one that cannot. -/
theorem State.toNat_succ_eq_len {s : State} {a : Word} (ha : s.memRead a ≠ none) (hn : s.memRead (a + 1) = none) :
    (a + 1).toNat = s.len.val := by
  obtain ⟨b, hb⟩ := Option.ne_none_iff_exists'.mp ha
  have hsucc : (a + 1).toNat = a.toNat + 1 := State.toNat_succ_of_memRead hb
  have hlt : a.toNat < s.len.val := (State.memRead_eq_some.mp hb).1
  have hle : s.len.val ≤ (a + 1).toNat := State.memRead_eq_none.mp hn
  omega

/-- The first operand byte that cannot be read has the address `L`: the byte before it can be read. -/
theorem State.toNat_eq_len_of_first_missing {s : State} {k : Nat} (hop : s.memRead s.pc ≠ none)
    (ho : ∀ j, j < k → s.memRead (s.pc + BitVec.ofNat 32 (j + 1)) ≠ none)
    (hn : s.memRead (s.pc + BitVec.ofNat 32 (k + 1)) = none) :
    (s.pc + BitVec.ofNat 32 (k + 1)).toNat = s.len.val := by
  have hprev : s.memRead (s.pc + BitVec.ofNat 32 k) ≠ none := by
    cases k with
    | zero => simpa using hop
    | succ j => exact ho j (Nat.lt_succ_self j)
  rw [BitVec.ofNat_add, ← BitVec.add_assoc] at hn ⊢
  exact State.toNat_succ_eq_len hprev hn

/-- In the Running status the opcode byte is there, so what a cycle cannot read is an operand byte (R122). -/
theorem toNat_pc_eq_len_of_imageOutOfBounds {s t : State} (hrun : s.status = .running) (h : step s = .next t)
    (ht : t.faulted = true) (hc : t.faultCause = 2) : t.pc.toNat = s.len.val := by
  obtain ⟨hs, hpc⟩ := s.status_eq_running_iff.mp hrun
  obtain ⟨hs', -⟩ | ⟨-, hf⟩ | ⟨-, i, u, hf, he⟩ := step_inversion h
  · simp [hs] at hs'
  · obtain ⟨hm, e⟩ | ⟨b, -, -, e⟩ | ⟨b, row, k, hm, -, -, ho, hn, e⟩ | ⟨b, row, ops, -, -, -, -, e⟩ :=
      s.fetchInstr_cases <;> rw [e] at hf <;> cases hf
    · exact absurd (State.memRead_eq_none.mp hm) (Nat.not_le_of_lt hpc)
    · exact absurd hc (by decide : FaultCause.invalidOpcode.code ≠ 2)
    · exact State.toNat_eq_len_of_first_missing (by simp [hm]) ho hn
  · obtain ⟨-, rfl⟩ := State.fetchInstr_got_iff.mp hf
    obtain rfl | rfl := he.eq_raise_index_or_divisor hs ht
    · exact absurd hc (by decide : FaultCause.registerIndex.code ≠ 2)
    · exact absurd hc (by decide : FaultCause.divideByZero.code ≠ 2)

/-- Settles O23: the fetch itself, the opcode fetch of a Halted block, and the first missing operand byte. -/
theorem outOfBoundsFetch : Obligations.OutOfBoundsFetch := by
  unfold Obligations.OutOfBoundsFetch
  refine ⟨fun s hpc => ?_, fun s hhalted => ?_, fun s t hrun h ht hc => ?_⟩
  · exact State.fetch_of_out_of_range (State.memRead_eq_none.mpr hpc)
  · obtain ⟨hs, hpc⟩ := s.status_eq_halted_iff.mp hhalted
    exact step_of_no_opcode hs (State.memRead_eq_none.mpr hpc)
  · have hlen := toNat_pc_eq_len_of_imageOutOfBounds hrun h ht hc
    exact ⟨hlen, hlen ▸ (s.status_eq_running_iff.mp hrun).2⟩

/-! ## Bad register indices -/

/-- The operand bytes of the instruction fetched are the image's bytes after the opcode byte. -/
theorem State.memRead_operand {s t : State} {i : Instr} (h : s.fetchInstr = .got i t) {j : Nat}
    (hj : j < i.operands.length) : s.memRead (s.pc + BitVec.ofNat 32 (j + 1)) = some i.operands[j] := by
  obtain ⟨-, e⟩ | ⟨_, -, -, e⟩ | ⟨_, _, _, -, -, -, -, -, e⟩ | ⟨b, row, ops, -, hr, hl, ho, e⟩ := s.fetchInstr_cases <;>
    rw [e] at h <;> cases h
  have hops : (build row.opcode ops).operands = ops :=
    build_operands_eq (by rw [hl, (opcodeByte_of_row hr).2])
  simp only [hops] at hj ⊢
  exact ho j hj

theorem step_of_decode {s : State} {i : Instr} {rest : List Byte} (hs : s.faulted = false)
    (hd : decode (s.bytesAt s.pc 4) = .ok (i, rest)) :
    step s = exec i (s.writePc (s.pc + BitVec.ofNat 32 i.length)) := by
  rw [step_of_not_faulted hs, cycle_of_got (State.fetchInstr_got_iff.mpr ⟨⟨rest, hd⟩, rfl⟩)]

/-- Settles O24: the instruction is fetched whole before its indices are checked; a register-index byte is an operand
byte, so it stands in the image behind the opcode byte. -/
theorem registerIndexFault : Obligations.RegisterIndexFault := by
  unfold Obligations.RegisterIndexFault
  intro s i rest hs hd hbad
  refine ⟨by rw [step_of_decode hs hd, exec_of_not_wellFormed _ ((not_wellFormed_iff i).mpr hbad)], ?_⟩
  obtain ⟨b, hb, hb32⟩ := hbad
  obtain ⟨j, hj, rfl⟩ := List.getElem_of_mem (i.regBytes_subset_operands hb)
  have hread := State.memRead_operand (State.fetchInstr_got_iff.mpr ⟨⟨rest, hd⟩, rfl⟩) hj
  exact ⟨j + 1, _, by omega, by rw [i.length_eq]; omega, hread, hb32⟩

/-! ## The order of the checks -/

/-- A cycle always ends in a next state: its fetch ends in a fault or in an instruction, and every meaning answers. -/
theorem exists_step (s : State) : ∃ t, step s = .next t := by
  cases hs : s.faulted with
  | true => exact ⟨s, step_of_faulted hs⟩
  | false =>
    rw [step_of_not_faulted hs]
    cases hf : s.fetchInstr with
    | raised t => exact ⟨t, cycle_of_raised hf⟩
    | got i u =>
      obtain ⟨t, ht, -⟩ := exec_effect i u
      exact ⟨t, (cycle_of_got hf).trans ht⟩

section AtRow

variable {s : State} {b : Byte} {row : Row}

/-- Where some operand byte is out of range, the first such byte ends the cycle. -/
theorem step_of_some_missing_operand {k : Nat} (hs : s.faulted = false) (hb : s.memRead s.pc = some b)
    (hr : rowOfByte b = some row) (hk : k < row.format.arity)
    (hn : s.memRead (s.pc + 1 + BitVec.ofNat 32 k) = none) :
    ∃ v, step s = .next ((s.writePc v).raise .imageOutOfBounds) := by
  have hex : ∃ n, s.memRead (s.pc + 1 + BitVec.ofNat 32 n) = none := ⟨k, hn⟩
  have hfirst : Nat.find hex < row.format.arity := (Nat.find_min' hex hn).trans_lt hk
  exact ⟨_, step_of_missing_operand hs hb hr hfirst (fun _ => Nat.find_min hex) (Nat.find_spec hex)⟩

/-- Where every operand byte is in range, the fetch ends in an instruction of the row. -/
theorem State.fetchInstr_got_of_operands (hb : s.memRead s.pc = some b) (hr : rowOfByte b = some row)
    (ho : ∀ k, k < row.format.arity → s.memRead (s.pc + 1 + BitVec.ofNat 32 k) ≠ none) :
    ∃ i u, s.fetchInstr = .got i u ∧ i.opcode = row.opcode := by
  have hbyte (k : Fin row.format.arity) : ∃ o, s.memRead (s.pc + BitVec.ofNat 32 (k.val + 1)) = some o := by
    rw [← add_one_add_ofNat]
    exact Option.ne_none_iff_exists'.mp (ho k.val k.isLt)
  choose o ho' using hbyte
  have hreads : ∀ j, (h : j < (List.ofFn o).length) →
      s.memRead (s.pc + BitVec.ofNat 32 (j + 1)) = some (List.ofFn o)[j] := by
    intro j h
    rw [List.getElem_ofFn]
    exact ho' ⟨j, by simpa using h⟩
  exact ⟨_, _, State.fetchInstr_of_reads hb hr List.length_ofFn hreads, build_opcode ..⟩

end AtRow

/-- A step that performs an instruction does so from `pc` just past it. -/
theorem effect_of_step {s t u : State} {i : Instr} (hs : s.faulted = false) (hf : s.fetchInstr = .got i u)
    (h : step s = .next t) : Effect u i t := by
  obtain ⟨t', ht', he⟩ := exec_effect i u
  rw [step_of_not_faulted hs, cycle_of_got hf, ht'] at h
  cases h
  exact he

/-- A faulting cycle moves `pc` and enters the fault, nothing else (R125: the writes come after all the checks). -/
theorem eq_raise_of_step_faults {s t : State} (hs : s.faulted = false) (h : step s = .next t) (ht : t.faulted = true) :
    ∃ v c, t = (s.writePc v).raise c := by
  obtain ⟨hs', -⟩ | ⟨-, hf⟩ | ⟨-, i, u, hf, he⟩ := step_inversion h
  · simp [hs] at hs'
  · exact State.eq_raise_of_fetchInstr_raised hf
  · obtain ⟨-, rfl⟩ := State.fetchInstr_got_iff.mp hf
    obtain e | e := he.eq_raise_index_or_divisor hs ht
    · exact ⟨_, _, e⟩
    · exact ⟨_, _, e⟩

/-- Settles O25: one lemma for each check of a fetch, then `Effect.checks` for the instruction fetched. -/
theorem firstFailingCheckDecides : Obligations.FirstFailingCheckDecides := by
  unfold Obligations.FirstFailingCheckDecides
  intro s hs
  obtain ⟨t, h⟩ := exists_step s
  refine ⟨t, h, fun hb => ?_, fun b hb => ⟨fun hr => ?_, fun row hr => ⟨fun ⟨k, hk, hn⟩ => ?_, fun ho => ?_⟩⟩,
    fun ht => ?_⟩
  · cases h.symm.trans (step_of_no_opcode hs hb)
    exact ⟨rfl, rfl⟩
  · cases h.symm.trans (step_of_no_row hs hb hr)
    exact ⟨rfl, rfl⟩
  · obtain ⟨v, hv⟩ := step_of_some_missing_operand hs hb hr hk hn
    cases h.symm.trans hv
    exact ⟨rfl, rfl⟩
  · obtain ⟨i, u, hf, hop⟩ := State.fetchInstr_got_of_operands hb hr ho
    have he : Effect u i t := effect_of_step hs hf h
    obtain ⟨⟨rest, hd⟩, rfl⟩ := State.fetchInstr_got_iff.mp hf
    refine ⟨i, rest, hd, hop, ?_⟩
    obtain ⟨hw, rfl⟩ | ⟨hw, hz, rfl⟩ | ⟨hw, hz, hfault⟩ := he.checks
    · exact ⟨fun _ => ⟨rfl, rfl⟩, fun hw' => by simp [hw] at hw'⟩
    · exact ⟨fun hw' => by simp [hw] at hw', fun _ => ⟨fun _ => ⟨rfl, rfl⟩, fun hz' => absurd hz hz'⟩⟩
    · exact ⟨fun hw' => by simp [hw] at hw', fun _ => ⟨fun hz' => absurd hz' hz, fun _ => hfault.trans hs⟩⟩
  · obtain ⟨v, c, rfl⟩ := eq_raise_of_step_faults hs h ht
    exact ⟨rfl, rfl, rfl, step_of_faulted rfl⟩

end Machine

end Sys2Proof

/-! # Reset, Step, SetPC, host reads and Run (R150, R154, R155, R158, R159) -/

namespace Sys2Proof.Machine

/-! ## One turn of `Run` and a run -/

theorem State.runTurn_of_not_running {s : State} (hs : s.status ≠ .running) : s.runTurn = s := by
  cases h : s.status with
  | running => exact absurd h hs
  | halted | faulted => simp only [State.runTurn, h]

theorem State.runTurn_of_running {s t : State} (hs : s.status = .running) (hc : cycle s = .next t) : s.runTurn = t := by
  simp only [State.runTurn, hs, hc]

@[simp] theorem State.runFor_zero (s : State) : s.runFor 0 = s := rfl

@[simp] theorem State.runFor_succ (s : State) (fuel : Nat) : s.runFor (fuel + 1) = s.runTurn.runFor fuel := rfl

/-- A block that is not Running fails the test of every turn, so a run of it makes no cycle. -/
theorem State.runFor_of_not_running {s : State} (hs : s.status ≠ .running) (fuel : Nat) : s.runFor fuel = s := by
  induction fuel with
  | zero => exact s.runFor_zero
  | succ fuel ih => rw [State.runFor_succ, State.runTurn_of_not_running hs, ih]

/-- The two statuses in which a run ends (R20, R155). -/
theorem State.status_ne_running_iff (s : State) :
    s.status ≠ .running ↔ (s.faulted = false ∧ s.len.val ≤ s.pc.toNat) ∨ s.faulted = true := by
  rw [Ne, State.status_eq_running_iff, not_and_or, Bool.not_eq_false, Nat.not_lt]
  cases s.faulted <;> simp

theorem State.RunEnds.sameImage {s t : State} (h : s.RunEnds t) : s.SameImage t := by
  obtain ⟨fuel, rfl, -⟩ := h
  exact hostOp_sameImage (.run fuel) s

/-- The empty image (R31) leaves the block as `State.reset` has it. -/
theorem boot_nil : boot [] = some State.reset := rfl

/-- Settles O44: one lemma for a block that is not Running, one for the turn of a Running one; the length in the test at
the end of a run is the one at its start, since no cycle writes it. -/
theorem runCyclesWhileRunning : Obligations.RunCyclesWhileRunning := by
  unfold Obligations.RunCyclesWhileRunning
  refine ⟨fun s fuel hs => State.runFor_of_not_running hs fuel, fun s t fuel hs hc => ?_, fun s t hend => ?_,
    fun s hboot => ?_⟩
  · rw [State.runFor_succ, State.runTurn_of_running hs hc]
  · obtain ⟨-, hlen⟩ := hend.sameImage
    obtain ⟨fuel, -, hstop⟩ := hend
    rw [← hlen]
    exact t.status_ne_running_iff.mp hstop
  · obtain rfl : State.reset = s := Option.some.inj (boot_nil.symm.trans hboot)
    have hhalted : State.reset.status = .halted := rfl
    exact ⟨⟨0, State.runFor_zero _, by simp [hhalted]⟩, hhalted⟩

/-! ## `Reset` -/

@[simp] theorem State.hostReset_readReg (s : State) (r : Fin Config.nreg) : s.hostReset.readReg r = 0 :=
  Vector.getElem_replicate r.isLt

/-- Settles O39: the reset values are constants, the image is kept by `State.sameImage_hostReset`, and any other operation
leaves a faulted block as it is (`hostOp_of_faulted`). -/
theorem resetOperation : Obligations.ResetOperation := by
  unfold Obligations.ResetOperation
  refine ⟨fun s => ⟨rfl, s.hostReset_readReg, rfl, rfl, rfl, rfl, rfl, s.sameImage_hostReset.memRead_eq⟩,
    fun op s hs hcleared => ?_⟩
  by_contra hop
  rw [hostOp_of_faulted hs hop, hs] at hcleared
  cases hcleared

/-! ## `Step` -/

/-- On a Halted block `pc` is out of range, so the cycle ends at its opcode fetch. -/
theorem step_of_halted {s : State} (hs : s.status = .halted) : step s = .next (s.raise .imageOutOfBounds) := by
  obtain ⟨hf, hpc⟩ := s.status_eq_halted_iff.mp hs
  exact step_of_no_opcode hf (State.memRead_eq_none.mpr hpc)

/-- Settles O48: the three lemmas about a step of a faulted, an unfaulted and a Halted block. -/
theorem stepOperation : Obligations.StepOperation := by
  unfold Obligations.StepOperation
  exact ⟨fun _ => step_of_faulted, fun _ => step_of_not_faulted, fun _ => step_of_halted⟩

/-! ## `SetPC` -/

theorem State.setPC_of_not_faulted {s : State} (hs : s.faulted = false) (v : Word) :
    s.setPC v = (s.writePc v, .done) := by
  simp only [State.setPC, hs, Bool.false_eq_true, if_false]

/-- Faulted or not, `SetPC` writes at most `pc`. -/
theorem State.setPC_cases (s : State) (v : Word) : (s.setPC v).1 = s ∨ (s.setPC v).1 = s.writePc v := by
  cases hs : s.faulted with
  | true => exact .inl (congrArg Prod.fst (State.setPC_of_faulted hs v))
  | false => exact .inr (congrArg Prod.fst (State.setPC_of_not_faulted hs v))

/-- The operations that can write a general register, `rem` or the flag: `Reset`, and those that make cycles. -/
theorem hostOp_frame (op : HostOp) (s : State) :
    (op = .reset ∨ op = .step ∨ ∃ fuel, op = .run fuel) ∨
    ((hostOp op s).1.regs = s.regs ∧ (hostOp op s).1.rem = s.rem ∧ (hostOp op s).1.flag = s.flag) := by
  cases op with
  | reset => exact .inl (.inl rfl)
  | step => exact .inl (.inr (.inl rfl))
  | run fuel => exact .inl (.inr (.inr ⟨fuel, rfl⟩))
  | setPC v =>
    change _ ∨ ((s.setPC v).1.regs = s.regs ∧ (s.setPC v).1.rem = s.rem ∧ (s.setPC v).1.flag = s.flag)
    obtain e | e := s.setPC_cases v <;> rw [e] <;> exact .inr ⟨rfl, rfl, rfl⟩
  | readReg | readAllRegs | readState => exact .inr ⟨rfl, rfl, rfl⟩

/-- Settles O49: `SetPC` on a faulted and on an unfaulted block, then the frame of the host's operations. -/
theorem setPcOperation : Obligations.SetPcOperation := by
  unfold Obligations.SetPcOperation
  refine fun s v => ⟨fun hs => State.setPC_of_faulted hs v, fun hs => ?_, fun op hchanged => ?_⟩
  · have hset : hostOp (.setPC v) s = (s.writePc v, .done) := State.setPC_of_not_faulted hs v
    rw [hset]
    exact ⟨rfl, (State.status_writePc_eq_running_iff hs v).mpr, (State.status_writePc_eq_halted_iff hs v).mpr⟩
  · obtain hop | ⟨hregs, hrem, hflag⟩ := hostOp_frame op s
    · exact hop
    · simp [hregs, hrem, hflag] at hchanged

/-! ## Host reads -/

theorem State.hostReadReg_of_ge (s : State) {i : Nat} (hi : 32 ≤ i) : s.hostReadReg i = .refused .readRegIndex :=
  dif_neg (Nat.not_lt_of_le hi)

/-- Settles O50: `ReadReg` on both sides of 32; the other two reads are the record they answer. -/
theorem hostReads : Obligations.HostReads := by
  unfold Obligations.HostReads
  exact fun s => ⟨fun _ hi => congrArg (Prod.mk s) (s.hostReadReg_of_lt hi),
    fun _ hi => congrArg (Prod.mk s) (s.hostReadReg_of_ge hi), rfl, rfl⟩

end Sys2Proof.Machine

/-! # Encoding and decoding (R50, R53, R55, R71) -/

namespace Sys2Proof

/-! ## One instruction -/

/-- Settles O1: the decoder evaluated on the ten sequences. -/
theorem wordsOfEachFormatDecode : Obligations.WordsOfEachFormatDecode := by
  unfold Obligations.WordsOfEachFormatDecode
  decide

/-- Settles O2: the table read off row by row. -/
theorem instructionTableIsTheSpecs : Obligations.InstructionTableIsTheSpecs := by
  unfold Obligations.InstructionTableIsTheSpecs
  decide

/-- The decoder learns the arity from the opcode byte (R53), so it cuts an encoding off exactly at its end. -/
theorem decode_encode_append (i : Instr) (rest : List Byte) : decode (encode i ++ rest) = .ok (i, rest) := by
  obtain ⟨row, hr, hop, hf⟩ := rowOfByte_of_opcode i.opcode
  have harity : row.format.arity = i.operands.length := by rw [hf, operands_length]
  rw [encode, List.cons_append]
  obtain ⟨hn, -⟩ | ⟨row', hr', hlt, -⟩ | ⟨row', hr', -, e⟩ :=
    decode_cons_cases (opcodeByte i.opcode) (i.operands ++ rest)
  · simp [hr] at hn
  · obtain rfl : row = row' := Option.some.inj (hr.symm.trans hr')
    simp [harity] at hlt
  · obtain rfl : row = row' := Option.some.inj (hr.symm.trans hr')
    rw [e, harity, List.take_left, List.drop_left, hop, build_operands]

/-- The opcode byte and the arity's number of bytes after it are the encoding of what the decoder builds from them. -/
theorem eq_encode_append_of_decode {bytes rest : List Byte} {i : Instr} (h : decode bytes = .ok (i, rest)) :
    bytes = encode i ++ rest := by
  cases bytes with
  | nil => cases h
  | cons b tail =>
    obtain ⟨-, e⟩ | ⟨row, -, -, e⟩ | ⟨row, hr, hle, e⟩ := decode_cons_cases b tail <;> rw [e] at h <;> cases h
    obtain ⟨hbyte, hf⟩ := opcodeByte_of_row hr
    have hops : (build row.opcode (tail.take row.format.arity)).operands = tail.take row.format.arity :=
      build_operands_eq (by rw [List.length_take, ← hf, Nat.min_eq_left hle])
    rw [encode, build_opcode, hops, hbyte, List.cons_append, List.take_append_drop]

/-- Settles O3: the encoding is cut off at its end, and what is cut off is an encoding. -/
theorem decodeAndEncodeAgree : Obligations.DecodeAndEncodeAgree := by
  unfold Obligations.DecodeAndEncodeAgree
  exact ⟨decode_encode_append, fun _ _ _ => eq_encode_append_of_decode⟩

/-! ## A stream of instructions -/

theorem encode_injective {i j : Instr} (h : encode i = encode j) : i = j := by
  have hi := decode_encode_append i []
  rw [h, decode_encode_append j []] at hi
  cases hi
  rfl

@[simp] theorem encodeAll_cons (i : Instr) (is : List Instr) : encodeAll (i :: is) = encode i ++ encodeAll is := rfl

/-- Every instruction takes at least its opcode byte (R50). -/
theorem length_le_length_encodeAll (is : List Instr) : is.length ≤ (encodeAll is).length := by
  induction is with
  | nil => exact Nat.le_refl 0
  | cons i is ih =>
    simp only [encodeAll_cons, encode, List.length_append, List.length_cons]
    omega

@[simp] theorem decodeAllFuel_nil (fuel : Nat) : decodeAllFuel fuel [] = .ok [] := by
  cases fuel <;> rfl

/-- One turn of the stream decoder, where an instruction stands at the front. -/
theorem decodeAllFuel_succ_of_decode {bytes rest : List Byte} {i : Instr} (h : decode bytes = .ok (i, rest))
    (fuel : Nat) : decodeAllFuel (fuel + 1) bytes = (decodeAllFuel fuel rest).map (i :: ·) := by
  cases bytes with
  | nil => cases h
  | cons b tail =>
    simp only [decodeAllFuel, h]
    cases decodeAllFuel fuel rest <;> rfl

/-- A turn that answers instructions has decoded the one at the front. -/
theorem decodeAllFuel_succ_eq_ok {b : Byte} {tail : List Byte} {fuel : Nat} {is : List Instr}
    (h : decodeAllFuel (fuel + 1) (b :: tail) = .ok is) :
    ∃ i rest js, decode (b :: tail) = .ok (i, rest) ∧ decodeAllFuel fuel rest = .ok js ∧ is = i :: js := by
  cases hd : decode (b :: tail) with
  | error e => simp [decodeAllFuel, hd] at h
  | ok p =>
    obtain ⟨i, rest⟩ := p
    rw [decodeAllFuel_succ_of_decode hd] at h
    cases hr : decodeAllFuel fuel rest with
    | error e => simp [hr, Except.map] at h
    | ok js => exact ⟨i, rest, js, rfl, hr, by simpa [hr, Except.map] using h.symm⟩

theorem decodeAllFuel_encodeAll {is : List Instr} {fuel : Nat} (hfuel : is.length ≤ fuel) :
    decodeAllFuel fuel (encodeAll is) = .ok is := by
  induction is generalizing fuel with
  | nil => exact decodeAllFuel_nil fuel
  | cons i is ih =>
    obtain ⟨fuel, rfl⟩ : ∃ n, fuel = n + 1 := ⟨fuel - 1, by simp at hfuel; omega⟩
    rw [encodeAll_cons, decodeAllFuel_succ_of_decode (decode_encode_append i _), ih (Nat.le_of_succ_le_succ hfuel)]
    rfl

/-- With a turn for every byte the stream decoder reaches the end of the sequence, so it has read all of it. -/
theorem encodeAll_of_decodeAllFuel {bytes : List Byte} {fuel : Nat} {is : List Instr}
    (hfuel : bytes.length ≤ fuel) (h : decodeAllFuel fuel bytes = .ok is) : encodeAll is = bytes := by
  induction fuel generalizing bytes is with
  | zero =>
    obtain rfl : bytes = [] := List.length_eq_zero_iff.mp (Nat.le_zero.mp hfuel)
    cases h
    rfl
  | succ fuel ih =>
    cases bytes with
    | nil => cases h; rfl
    | cons b tail =>
      obtain ⟨i, rest, js, hd, hrest, rfl⟩ := decodeAllFuel_succ_eq_ok h
      have hbytes : b :: tail = encode i ++ rest := eq_encode_append_of_decode hd
      have hlen := congrArg List.length hbytes
      simp only [encode, List.length_cons, List.length_append] at hlen hfuel
      rw [encodeAll_cons, ih (by omega) hrest, hbytes]

/-- Settles O4: induction over the instructions one way and over the turns of the decoder the other way; injectivity from
the round trip of one instruction. -/
theorem streamRoundTrip : Obligations.StreamRoundTrip := by
  unfold Obligations.StreamRoundTrip
  refine ⟨fun is => decodeAllFuel_encodeAll (length_le_length_encodeAll is),
    fun bytes is h => encodeAll_of_decodeAllFuel (Nat.le_refl _) h, fun i j => ⟨fun ⟨ho, hops⟩ => ?_, fun h => ?_⟩⟩
  · rw [encode, encode, ho, hops]
  · rw [encode_injective h]
    exact ⟨rfl, rfl⟩

end Sys2Proof

/-! # Assembling what is disassembled (R62 to R68) -/

namespace Sys2Proof.Machine

/-! ## White space and separators -/

theorem trim_eq_self {cs : List Char} (h : ∀ c ∈ cs, c.isWhitespace = false) : trim cs = cs := by
  have hkeep : ∀ {ds : List Char}, (∀ c ∈ ds, c.isWhitespace = false) → trimLeft ds = ds := by
    intro ds hds
    cases ds with
    | nil => rfl
    | cons d ds => exact List.dropWhile_cons_of_neg (by simp [hds d])
  rw [trim, trimRight, hkeep h, hkeep (by simpa using h), List.reverse_reverse]

theorem trim_space_cons (cs : List Char) : trim (' ' :: cs) = trim cs := rfl

theorem trimLeft_cons_of_not_whitespace {c : Char} (cs : List Char) (hc : c.isWhitespace = false) :
    trimLeft (c :: cs) = c :: cs :=
  List.dropWhile_cons_of_neg (by simp [hc])

/-- Trimming on the right leaves alone what stands before a visible character. -/
theorem trimRight_append {c : Char} {ys : List Char} (xs : List Char) (hc : c ∈ ys) (hv : c.isWhitespace = false) :
    trimRight (xs ++ ys) = xs ++ trimRight ys := by
  have hne : (ys.reverse.dropWhile Char.isWhitespace).isEmpty = false := by
    rw [List.isEmpty_eq_false_iff, Ne, List.dropWhile_eq_nil_iff]
    intro hall
    simp [hall c (by simpa using hc)] at hv
  simp [trimRight, trimLeft, List.dropWhile_append, hne]

theorem trim_cons_ne_nil {c : Char} (cs : List Char) (hc : c.isWhitespace = false) : trim (c :: cs) ≠ [] := by
  rw [trim, trimLeft_cons_of_not_whitespace cs hc, trimRight, Ne, List.reverse_eq_nil_iff, trimLeft,
    List.dropWhile_eq_nil_iff]
  intro hall
  simp [hall c (by simp)] at hc

theorem splitAt_of_not_mem {sep : Char} {cs : List Char} (h : sep ∉ cs) : splitAt sep cs = [cs] := by
  induction cs with
  | nil => rfl
  | cons c cs ih =>
    rw [List.mem_cons, not_or] at h
    simp only [splitAt, if_neg (Ne.symm h.1), ih h.2]

theorem splitAt_append {sep : Char} {cs : List Char} (ds : List Char) (h : sep ∉ cs) :
    splitAt sep (cs ++ sep :: ds) = cs :: splitAt sep ds := by
  induction cs with
  | nil => simp [splitAt]
  | cons c cs ih =>
    rw [List.mem_cons, not_or] at h
    simp only [List.cons_append, splitAt, if_neg (Ne.symm h.1), ih h.2]

theorem splitFirstSpace_append {cs : List Char} (ds : List Char) (h : ' ' ∉ cs) :
    splitFirstSpace (cs ++ ' ' :: ds) = (cs, some ds) := by
  induction cs with
  | nil => simp [splitFirstSpace]
  | cons c cs ih =>
    rw [List.mem_cons, not_or] at h
    simp only [List.cons_append, splitFirstSpace, if_neg (Ne.symm h.1), ih h.2]

/-! ## Bytes in decimal -/

/-- The characters of the digits 0 to 9. -/
def IsDigitChar (c : Char) : Prop := ∃ n, n < 10 ∧ c = digitChar n

theorem digitValue_digitChar {n : Nat} (hn : n < 10) : digitValue (digitChar n) = some n := by
  interval_cases n <;> decide

theorem IsDigitChar.not_whitespace {c : Char} (h : IsDigitChar c) : c.isWhitespace = false := by
  obtain ⟨n, hn, rfl⟩ := h
  interval_cases n <;> decide

theorem IsDigitChar.ne_comma {c : Char} (h : IsDigitChar c) : c ≠ ',' := by
  obtain ⟨n, hn, rfl⟩ := h
  interval_cases n <;> decide

/-- The three lengths of a byte in decimal. -/
theorem printByte_cases (b : Byte) :
    (∃ x, x < 10 ∧ b.toNat = x ∧ printByte b = [digitChar x]) ∨
    (∃ x y, x < 10 ∧ y < 10 ∧ b.toNat = 10 * x + y ∧ printByte b = [digitChar x, digitChar y]) ∨
    (∃ x y z, x < 10 ∧ y < 10 ∧ z < 10 ∧ b.toNat = 100 * x + 10 * y + z ∧
      printByte b = [digitChar x, digitChar y, digitChar z]) := by
  have hb : b.toNat < 256 := b.isLt
  by_cases h1 : b.toNat < 10
  · exact .inl ⟨b.toNat, h1, rfl, by simp only [printByte, if_pos h1]⟩
  · by_cases h2 : b.toNat < 100
    · exact .inr (.inl ⟨b.toNat / 10, b.toNat % 10, by omega, by omega, by omega,
        by simp only [printByte, if_neg h1, if_pos h2]⟩)
    · exact .inr (.inr ⟨b.toNat / 100, b.toNat / 10 % 10, b.toNat % 10, by omega, by omega, by omega, by omega,
        by simp only [printByte, if_neg h1, if_neg h2]⟩)

theorem isDigitChar_of_mem_printByte {b : Byte} {c : Char} (hc : c ∈ printByte b) : IsDigitChar c := by
  obtain ⟨x, hx, -, e⟩ | ⟨x, y, hx, hy, -, e⟩ | ⟨x, y, z, hx, hy, hz, -, e⟩ := printByte_cases b <;>
    simp only [e, List.mem_cons, List.not_mem_nil, or_false] at hc
  · exact ⟨x, hx, hc⟩
  · obtain rfl | rfl := hc
    exacts [⟨x, hx, rfl⟩, ⟨y, hy, rfl⟩]
  · obtain rfl | rfl | rfl := hc
    exacts [⟨x, hx, rfl⟩, ⟨y, hy, rfl⟩, ⟨z, hz, rfl⟩]

theorem decimalValue_digitChar_cons (acc : Nat) {n : Nat} (cs : List Char) (hn : n < 10) :
    decimalValue acc (digitChar n :: cs) = decimalValue (10 * acc + n) cs := by
  simp only [decimalValue, digitValue_digitChar hn]

/-- The digits printed are read back to the byte's value (R65). -/
theorem decimalValue_printByte (b : Byte) : decimalValue 0 (printByte b) = some b.toNat := by
  obtain ⟨x, hx, hv, e⟩ | ⟨x, y, hx, hy, hv, e⟩ | ⟨x, y, z, hx, hy, hz, hv, e⟩ := printByte_cases b
  · rw [e, decimalValue_digitChar_cons _ _ hx, decimalValue, hv]
    simp
  · rw [e, decimalValue_digitChar_cons _ _ hx, decimalValue_digitChar_cons _ _ hy, decimalValue, hv]
    congr 1
    omega
  · rw [e, decimalValue_digitChar_cons _ _ hx, decimalValue_digitChar_cons _ _ hy,
      decimalValue_digitChar_cons _ _ hz, decimalValue, hv]
    congr 1
    omega

theorem parseByte_printByte (b : Byte) : parseByte (printByte b) = some b := by
  have hb : b.toNat ≤ 255 := Nat.le_of_lt_succ b.isLt
  have hv := decimalValue_printByte b
  cases hp : printByte b with
  | nil =>
    obtain ⟨_, _, _, e⟩ | ⟨_, _, _, _, _, e⟩ | ⟨_, _, _, _, _, _, _, e⟩ := printByte_cases b <;> simp [hp] at e
  | cons c cs =>
    rw [hp] at hv
    simp only [parseByte, hv, if_pos hb, BitVec.ofNat_toNat, BitVec.setWidth_eq]

/-! ## Tokens -/

/-- The type character of a token (R65). -/
def Token.tag : Token → Char
  | .immediate _ => '#'
  | .registerRef _ => '$'

theorem printToken_eq (t : Token) : printToken t = t.tag :: printByte t.byte := by
  cases t <;> rfl

theorem Token.tag_cases (t : Token) : t.tag = '#' ∨ t.tag = '$' := by
  cases t with
  | immediate b => exact .inl rfl
  | registerRef b => exact .inr rfl

theorem Token.tag_visible (t : Token) : t.tag.isWhitespace = false := by
  obtain h | h := t.tag_cases <;> rw [h] <;> decide

theorem not_whitespace_of_mem_printToken (t : Token) : ∀ c ∈ printToken t, c.isWhitespace = false := by
  intro c hc
  rw [printToken_eq, List.mem_cons] at hc
  obtain rfl | hc := hc
  · exact t.tag_visible
  · exact (isDigitChar_of_mem_printByte hc).not_whitespace

theorem comma_not_mem_printToken (t : Token) : ',' ∉ printToken t := by
  rw [printToken_eq, List.mem_cons, not_or]
  exact ⟨by obtain h | h := t.tag_cases <;> rw [h] <;> decide, fun hc => (isDigitChar_of_mem_printByte hc).ne_comma rfl⟩

theorem parseToken_printToken (line : Nat) (t : Token) : parseToken line (printToken t) = .ok t := by
  cases t with
  | immediate b => simp only [printToken, parseToken, parseByte_printByte, if_true]
  | registerRef b =>
    have hne : ('$' : Char) ≠ '#' := by decide
    simp only [printToken, parseToken, parseByte_printByte, if_neg hne, if_true]

theorem parseTokens_map {line : Nat} {print : Token → List Char}
    (h : ∀ t, parseToken line (trim (print t)) = .ok t) (ts : List Token) :
    parseTokens line (ts.map print) = .ok ts := by
  induction ts with
  | nil => rfl
  | cons t ts ih => simp only [List.map_cons, parseTokens, h, ih]

/-- The separator printed is a comma and a space (log entry 9), so every token but the first is cut off with a leading
space. -/
theorem splitAt_printTokens (t : Token) (ts : List Token) :
    splitAt ',' (printTokens (t :: ts)) = printToken t :: ts.map fun u => ' ' :: printToken u := by
  induction ts generalizing t with
  | nil => exact splitAt_of_not_mem (comma_not_mem_printToken t)
  | cons u us ih =>
    have hspace : splitAt ',' (' ' :: printTokens (u :: us)) =
        (' ' :: printToken u) :: us.map fun u => ' ' :: printToken u := by
      have hne : (' ' : Char) ≠ ',' := by decide
      simp only [splitAt, if_neg hne, ih u]
    have hshape : printTokens (t :: u :: us) = printToken t ++ ',' :: ' ' :: printTokens (u :: us) := by
      simp [printTokens]
    rw [hshape, splitAt_append _ (comma_not_mem_printToken t), hspace, List.map_cons]

theorem printTokens_cons_eq (t : Token) (ts : List Token) :
    ∃ cs, printTokens (t :: ts) = t.tag :: cs := by
  cases ts <;> simp [printTokens, printToken_eq]

theorem parseOperands_printTokens (line : Nat) (t : Token) (ts : List Token) :
    parseOperands line (printTokens (t :: ts)) = .ok (t :: ts) := by
  have hne : trim (printTokens (t :: ts)) ≠ [] := by
    obtain ⟨cs, e⟩ := printTokens_cons_eq t ts
    rw [e]
    exact trim_cons_ne_nil cs t.tag_visible
  have hparse (u : Token) : parseToken line (trim (printToken u)) = .ok u := by
    rw [trim_eq_self (not_whitespace_of_mem_printToken u), parseToken_printToken]
  have hrest : parseTokens line (ts.map fun u => ' ' :: printToken u) = .ok ts :=
    parseTokens_map (fun u => by rw [trim_space_cons, hparse]) ts
  simp only [parseOperands, if_neg hne, splitAt_printTokens, parseTokens, hparse, hrest]

/-! ## Mnemonics -/

theorem mnemonicOf_visible (o : Opcode) : ∀ c ∈ mnemonicOf o, c.isWhitespace = false := by
  have hall : (mnemonicOf o).all (fun c => !c.isWhitespace) = true := by cases o <;> decide
  simpa using hall

theorem semicolon_not_mem_mnemonicOf (o : Opcode) : ';' ∉ mnemonicOf o := by
  cases o <;> decide

theorem space_not_mem_mnemonicOf (o : Opcode) : ' ' ∉ mnemonicOf o := fun h =>
  absurd (mnemonicOf_visible o _ h) (by decide)

theorem mnemonicOf_ne_nil (o : Opcode) : mnemonicOf o ≠ [] := by
  cases o <;> decide

/-- The table finds the row of every opcode by the mnemonic it prints (R60, R64). -/
theorem rowOfMnemonic_mnemonicOf (o : Opcode) : rowOfMnemonic (mnemonicOf o) = rowOfOpcode o := by
  cases o <;> decide

/-- No mnemonic of the table holds a space, so no text with one is a mnemonic (R64). -/
theorem rowOfMnemonic_of_space_mem {cs : List Char} (h : ' ' ∈ cs) : rowOfMnemonic cs = none := by
  have hupper : ' ' ∈ cs.map Char.toUpper := List.mem_map.mpr ⟨' ', h, rfl⟩
  have htable : ∀ row ∈ instructionTable, ' ' ∉ row.mnemonic := by decide
  rw [rowOfMnemonic, List.find?_eq_none]
  intro row hrow heq
  exact htable row hrow (by rwa [eq_of_beq heq])

/-! ## A disassembled line -/

@[simp] theorem map_byte_tokensOf (i : Instr) : (tokensOf i).map Token.byte = i.operands := by
  cases i <;> rfl

theorem encodeTokens_tokensOf (i : Instr) : encodeTokens (i.opcode, tokensOf i) = encode i := by
  rw [encodeTokens, map_byte_tokensOf, encode]

theorem length_tokensOf (i : Instr) : (tokensOf i).length = (formatOf i.opcode).arity := by
  rw [← List.length_map Token.byte, map_byte_tokensOf, operands_length]

/-- A line of a zero-arity mnemonic alone (R66). -/
theorem bareRow_mnemonicOf {o : Opcode} (h : (formatOf o).arity = 0) :
    ∃ row, bareRow (mnemonicOf o) = some row ∧ row.opcode = o := by
  cases o with
  | hlt | nop => exact ⟨_, rfl, rfl⟩
  | _ => cases h

/-- Operands follow, so the line is not a mnemonic alone. -/
theorem bareRow_append_printTokens (name : List Char) (t : Token) (ts : List Token) :
    bareRow (name ++ ' ' :: printTokens (t :: ts)) = none := by
  obtain ⟨cs, e⟩ := printTokens_cons_eq t ts
  have htag : t.tag ∈ printTokens (t :: ts) := by simp [e]
  have htrim : trimRight (name ++ ' ' :: printTokens (t :: ts)) = name ++ ' ' :: trimRight (printTokens (t :: ts)) := by
    simpa using trimRight_append (name ++ [' ']) htag t.tag_visible
  have hrow : rowOfMnemonic (trimRight (name ++ ' ' :: printTokens (t :: ts))) = none :=
    rowOfMnemonic_of_space_mem (by simp [htrim])
  simp only [bareRow, hrow]

theorem lexInstruction_disassemble (line : Nat) (i : Instr) :
    lexInstruction line (disassemble i) = .ok (i.opcode, tokensOf i) := by
  obtain ⟨row, hrow, hop, -, hf⟩ := rowOfOpcode_isSome i.opcode
  have hlen : (tokensOf i).length = row.format.arity := by rw [length_tokensOf, hf]
  cases ht : tokensOf i with
  | nil =>
    have harity : (formatOf i.opcode).arity = 0 := by rw [← length_tokensOf, ht, List.length_nil]
    obtain ⟨row', hb, hop'⟩ := bareRow_mnemonicOf harity
    simp only [lexInstruction, disassemble, ht, hb, hop']
  | cons t ts =>
    rw [ht] at hlen
    simp only [lexInstruction, disassemble, ht, bareRow_append_printTokens,
      splitFirstSpace_append _ (space_not_mem_mnemonicOf i.opcode), rowOfMnemonic_mnemonicOf, hrow,
      parseOperands_printTokens, if_pos hlen, hop]

/-- A disassembled line begins with the first character of its mnemonic. -/
theorem disassemble_eq_cons (i : Instr) : ∃ c cs, disassemble i = c :: cs ∧ c ∈ mnemonicOf i.opcode := by
  obtain ⟨c, cs, e⟩ := List.exists_cons_of_ne_nil (mnemonicOf_ne_nil i.opcode)
  have hc : c ∈ mnemonicOf i.opcode := by simp [e]
  cases ht : tokensOf i with
  | nil => exact ⟨c, cs, by simp only [disassemble, ht, e], hc⟩
  | cons t ts => exact ⟨c, cs ++ ' ' :: printTokens (t :: ts), by simp only [disassemble, ht, e, List.cons_append], hc⟩

theorem lexLine_disassemble (line : Nat) (i : Instr) :
    lexLine line (disassemble i) = .ok (some (i.opcode, tokensOf i)) := by
  have hlex := lexInstruction_disassemble line i
  obtain ⟨c, cs, e, hc⟩ := disassemble_eq_cons i
  rw [e] at hlex ⊢
  have hcomment : (c :: cs).head? ≠ some ';' := by
    intro h
    obtain rfl : c = ';' := Option.some.inj h
    exact semicolon_not_mem_mnemonicOf i.opcode hc
  simp only [lexLine, if_neg hcomment, if_neg (trim_cons_ne_nil cs (mnemonicOf_visible i.opcode c hc)), hlex]

theorem lexLines_map_disassemble (line : Nat) (is : List Instr) :
    lexLines line (is.map disassemble) = ([], is.map fun i => (i.opcode, tokensOf i)) := by
  induction is generalizing line with
  | nil => rfl
  | cons i is ih => simp only [List.map_cons, lexLines, lexLine_disassemble, ih]

/-- Settles O51: every line is lexed back to its opcode and tokens, and these assemble to the instruction's bytes. -/
theorem assemblingDisassemblyGivesTheBytes : Obligations.AssemblingDisassemblyGivesTheBytes := by
  unfold Obligations.AssemblingDisassemblyGivesTheBytes
  intro is
  simp only [assemble, lexDocument, lexLines_map_disassemble, List.flatMap_map, encodeTokens_tokensOf]
  rfl

end Sys2Proof.Machine

/-! # Batch or nothing (R70) -/

namespace Sys2Proof.Machine

/-! ## What one line contributes -/

/-- The failure of a line, if it fails. -/
def lineFailure : Except AsmError (Option (Opcode × List Token)) → Option AsmError
  | .error e => some e
  | .ok _ => none

/-- The bytes of a line: none where it fails or holds no instruction. -/
def lineBytes : Except AsmError (Option (Opcode × List Token)) → List Byte
  | .ok (some i) => encodeTokens i
  | _ => []

theorem lexLines_cons_failures (line : Nat) (cs : List Char) (ls : List (List Char)) :
    (lexLines line (cs :: ls)).1 = (lineFailure (lexLine line cs)).toList ++ (lexLines (line + 1) ls).1 := by
  cases h : lexLine line cs with
  | error e => simp only [lexLines, h, lineFailure, Option.toList_some, List.singleton_append]
  | ok o => cases o <;> simp only [lexLines, h, lineFailure, Option.toList_none, List.nil_append]

theorem lexLines_cons_bytes (line : Nat) (cs : List Char) (ls : List (List Char)) :
    (lexLines line (cs :: ls)).2.flatMap encodeTokens =
      lineBytes (lexLine line cs) ++ (lexLines (line + 1) ls).2.flatMap encodeTokens := by
  cases h : lexLine line cs with
  | error e => simp only [lexLines, h, lineBytes, List.nil_append]
  | ok o => cases o <;> simp only [lexLines, h, lineBytes, List.nil_append, List.flatMap_cons]

/-! ## What the lines of a document contribute -/

theorem lexLines_failures (line : Nat) (ls : List (List Char)) :
    (lexLines line ls).1 =
      (List.range ls.length).filterMap fun n => lineFailure (lexLine (n + line) (ls.getD n [])) := by
  induction ls generalizing line with
  | nil => rfl
  | cons cs ls ih =>
    rw [lexLines_cons_failures, ih, List.length_cons, List.range_succ_eq_map, List.filterMap_cons,
      List.filterMap_map, Nat.zero_add, List.getD_cons_zero]
    have hshift : (fun n => lineFailure (lexLine (n + (line + 1)) (ls.getD n []))) =
        (fun n => lineFailure (lexLine (n + line) ((cs :: ls).getD n []))) ∘ Nat.succ := by
      funext n
      simp only [Function.comp_apply, List.getD_cons_succ, Nat.succ_add_eq_add_succ]
    rw [hshift]
    cases lineFailure (lexLine line cs) <;> rfl

theorem lexLines_bytes (line : Nat) (ls : List (List Char)) :
    (lexLines line ls).2.flatMap encodeTokens =
      (List.range ls.length).flatMap fun n => lineBytes (lexLine (n + line) (ls.getD n [])) := by
  induction ls generalizing line with
  | nil => rfl
  | cons cs ls ih =>
    rw [lexLines_cons_bytes, ih, List.length_cons, List.range_succ_eq_map, List.flatMap_cons, List.flatMap_map,
      Nat.zero_add, List.getD_cons_zero]
    simp only [List.getD_cons_succ, Nat.succ_add_eq_add_succ]

theorem assemble_eq (ls : List (List Char)) :
    assemble ls = if (lexLines 1 ls).1 = [] then .ok ((lexLines 1 ls).2.flatMap encodeTokens)
      else .error (lexLines 1 ls).1 := by
  cases h : lexLines 1 ls with
  | mk failures is => cases failures <;> simp [assemble, lexDocument, h]

/-- Settles O52: the failures and the bytes collected line by line are those of the lexer, by induction on the lines. -/
theorem lexingIsBatchOrNothing : Obligations.LexingIsBatchOrNothing := by
  unfold Obligations.LexingIsBatchOrNothing
  intro ls failures bytes hfailures hbytes
  have hf : failures = (lexLines 1 ls).1 := by
    rw [hfailures, lexLines_failures]
    refine congrArg (List.filterMap · (List.range ls.length)) (funext fun n => ?_)
    cases lexLine (n + 1) (ls.getD n []) <;> rfl
  have hb : bytes = (lexLines 1 ls).2.flatMap encodeTokens := by
    rw [hbytes, lexLines_bytes]
    refine congrArg (List.flatMap · (List.range ls.length)) (funext fun n => ?_)
    cases lexLine (n + 1) (ls.getD n []) with
    | error e => rfl
    | ok o => cases o <;> rfl
  rw [assemble_eq, hf, hb]

end Sys2Proof.Machine

/-! # The invariant (R20, R31) -/

namespace Sys2Proof.Machine

/-! ## The fault registers -/

theorem State.faultRegsWf_raise (s : State) (c : FaultCause) : (s.raise c).faultRegsWf = true := by
  cases c <;> rfl

/-- The two states hold the same fault registers. -/
def State.SameFault (s t : State) : Prop := t.faulted = s.faulted ∧ t.faultCause = s.faultCause

theorem State.SameFault.faultRegsWf_eq {s t : State} (h : s.SameFault t) : t.faultRegsWf = s.faultRegsWf := by
  obtain ⟨hfaulted, hcause⟩ := h
  simp only [State.faultRegsWf, hfaulted, hcause]

/-- A meaning enters a fault or leaves the fault registers alone. -/
theorem Effect.sameFault_or_raise {s t : State} {i : Instr} (he : Effect s i t) :
    s.SameFault t ∨ ∃ c, t = s.raise c := by
  cases he with
  | badIndex | zeroDivisor => exact .inr ⟨_, rfl⟩
  | nothing | threeRegs | oneReg | comparison | jump | division => exact .inl ⟨rfl, rfl⟩

/-- A step enters a fault (R126) or leaves the fault registers alone. -/
theorem step_sameFault_or_raise {s t : State} (h : step s = .next t) :
    s.SameFault t ∨ ∃ u c, t = State.raise u c := by
  obtain ⟨-, rfl⟩ | ⟨-, hf⟩ | ⟨-, i, u, hf, he⟩ := step_inversion h
  · exact .inl ⟨rfl, rfl⟩
  · obtain ⟨v, c, e⟩ := State.eq_raise_of_fetchInstr_raised hf
    exact .inr ⟨_, c, e⟩
  · obtain ⟨-, rfl⟩ := State.fetchInstr_got_iff.mp hf
    obtain hsame | ⟨c, e⟩ := he.sameFault_or_raise
    · exact .inl hsame
    · exact .inr ⟨_, c, e⟩

/-! ## The invariant -/

/-- The invariant speaks of the fault registers and the image alone. -/
theorem State.Inv.of_sameImage {s t : State} (hs : s.Inv) (himage : s.SameImage t)
    (hfault : t.faultRegsWf = true) : t.Inv := by
  obtain ⟨himem, hlen⟩ := himage
  refine ⟨hfault, ?_⟩
  rw [State.imageWf, himem, hlen]
  exact hs.2

theorem step_preserves_inv {s t : State} (hs : s.Inv) (h : step s = .next t) : t.Inv := by
  refine hs.of_sameImage (step_sameImage h) ?_
  obtain hsame | ⟨u, c, rfl⟩ := step_sameFault_or_raise h
  · rw [hsame.faultRegsWf_eq]
    exact hs.1
  · exact u.faultRegsWf_raise c

/-- Settles O28: a step keeps the image, and keeps the fault registers or enters one of the four faults. -/
theorem stepKeepsInv : Obligations.StepKeepsInv := by
  unfold Obligations.StepKeepsInv
  exact fun _ _ => step_preserves_inv

/-- Settles O29: `Reset` and a write of `pc` keep the image and agreeing fault registers; the rest is made of steps. -/
theorem hostOperationsKeepInv : Obligations.HostOperationsKeepInv := by
  unfold Obligations.HostOperationsKeepInv
  exact fun op s hs => hostOp_preserves (P := State.Inv) (fun _ _ h hi => step_preserves_inv hi h)
    (fun t ht => ht.of_sameImage t.sameImage_hostReset rfl)
    (fun t v ht => ht.of_sameImage (t.sameImage_writePc v) ht.1) op hs

theorem reset_inv : State.reset.Inv := ⟨rfl, rfl⟩

/-- Settles O30: the fault registers are clear and the image is empty. -/
theorem resetMeetsInv : Obligations.ResetMeetsInv := by
  unfold Obligations.ResetMeetsInv
  exact reset_inv

/-! ## A loaded image (R31, R152) -/

/-- The state in which an image is loaded and the block reset. -/
def bootState (bytes : List Byte) (h : bytes.length < Config.imageBound) : State :=
  { State.reset with imem := Memory.place [] 0 bytes, len := ⟨bytes.length, h⟩ }

theorem boot_of_lt {bytes : List Byte} (h : bytes.length < Config.imageBound) :
    boot bytes = some (bootState bytes h) := by
  have hmax : max (State.reset.len.val) (0 + bytes.length) = bytes.length := by
    rw [Nat.zero_add]
    exact Nat.zero_max bytes.length
  obtain ⟨_, e⟩ | ⟨hge, -⟩ := State.reset.placeBytes_cases 0 bytes
  · have hload : State.reset.loadImage bytes = some (State.reset.placeBytes 0 bytes) := if_pos h
    simp only [boot, hload, e, hmax, Option.map_some]
    rfl
  · omega

theorem boot_of_ge {bytes : List Byte} (h : Config.imageBound ≤ bytes.length) : boot bytes = none := by
  simp only [boot, State.loadImage, if_neg (Nat.not_lt_of_le h), Option.map_none]

theorem bootState_imageWf {bytes : List Byte} (h : bytes.length < Config.imageBound) :
    (bootState bytes h).imageWf = true := by
  have hwf : Memory.wf (Memory.place [] 0 bytes) = true := Memory.wf_place 0 bytes rfl
  have hbound : ∀ cell ∈ Memory.place [] 0 bytes, cell.1 < bytes.length := by
    intro cell hcell
    obtain hcell | ⟨-, hlt⟩ := Memory.mem_place hcell
    · cases hcell
    · simpa using hlt
  rw [State.imageWf, Bool.and_eq_true, List.all_eq_true]
  exact ⟨hwf, fun cell hcell => decide_eq_true (hbound cell hcell)⟩

theorem bootState_memRead {bytes : List Byte} (h : bytes.length < Config.imageBound) {j : Nat}
    (hj : j < bytes.length) : (bootState bytes h).memRead (BitVec.ofNat 32 j) = some bytes[j] := by
  have hbound : bytes.length < 2147483648 := h
  have hval : (BitVec.ofNat 32 j).toNat = j := by
    rw [BitVec.toNat_ofNat]
    omega
  rw [State.memRead_eq_some, hval]
  have hread : Memory.read (Memory.place [] 0 bytes) (0 + j) = bytes[j] := Memory.read_place rfl hj
  rw [Nat.zero_add] at hread
  exact ⟨hj, hread⟩

/-- Settles O43: an image below the bound is placed byte by byte in an empty one; a longer one is refused. -/
theorem loadedImageIsRead : Obligations.LoadedImageIsRead := by
  unfold Obligations.LoadedImageIsRead
  refine ⟨fun bytes => ?_, fun bytes s hboot => ?_⟩
  · by_cases h : bytes.length < Config.imageBound
    · have hlt : ¬2 ^ 31 ≤ bytes.length := Nat.not_le_of_lt h
      simp only [boot_of_lt h, hlt, reduceCtorEq]
    · have hle : Config.imageBound ≤ bytes.length := Nat.le_of_not_lt h
      exact iff_of_true (boot_of_ge hle) hle
  · by_cases h : bytes.length < Config.imageBound
    · obtain rfl : bootState bytes h = s := Option.some.inj ((boot_of_lt h).symm.trans hboot)
      exact ⟨⟨rfl, bootState_imageWf h⟩, rfl, fun j => bootState_memRead h, rfl, rfl, rfl, rfl, rfl, rfl⟩
    · rw [boot_of_ge (Nat.le_of_not_lt h)] at hboot
      cases hboot

end Sys2Proof.Machine

/-! # Every instruction completes, and its frame (R81 to R103, R110) -/

namespace Sys2Proof.Machine

/-! ## MODR -/

theorem exec_modr_ofNat (s : State) (r : Fin Config.nreg) :
    exec (.modr (BitVec.ofNat 8 r.val)) s = .next (s.writeReg r s.rem) := by
  simp only [exec, execModr, withReg_ofNat]

/-- Settles O13: the three ends of a format R cycle. -/
theorem modrCycle : Obligations.ModrCycle := by
  unfold Obligations.ModrCycle
  intro s hs hm
  have hrow : rowOfByte 0x11 = some ⟨0x11, .modr, ['M', 'O', 'D', 'R'], .r⟩ := rfl
  refine ⟨fun r hr => ?_, fun r => step_of_r_of_bad_index hs hm hrow rfl, step_of_r_of_missing hs hm hrow rfl⟩
  exact (step_of_r hs hm hrow rfl hr).trans (exec_modr_ofNat _ r)

/-! ## The writers of a register -/

/-- Settles O14: each of the seven meanings is a write of the destination register. -/
theorem registerWritersComplete : Obligations.RegisterWritersComplete := by
  unfold Obligations.RegisterWritersComplete
  intro s a b d hi lo i v h
  have hexec : exec i s = .next (s.writeReg d v) := by
    obtain ⟨rfl, rfl⟩ | ⟨rfl, rfl⟩ | ⟨rfl, rfl⟩ | ⟨rfl, rfl⟩ | ⟨rfl, rfl⟩ | ⟨rfl, rfl⟩ | ⟨rfl, rfl⟩ := h
    · exact exec_add_ofNat s a b d
    · exact exec_sub_ofNat s a b d
    · exact exec_mul_ofNat s a b d
    · exact exec_inc_ofNat s d
    · exact exec_dec_ofNat s d
    · exact exec_load_ofNat s d hi lo
    · exact exec_modr_ofNat s d
  exact ⟨_, hexec, s.readReg_writeReg_same d v, fun _ => s.readReg_writeReg_ne v, rfl, rfl, rfl, rfl, rfl, rfl,
    fun _ => rfl⟩

/-- The wrapped result of R87 differs from the exact one by a multiple of 2^32. -/
theorem dvd_toInt_ofInt_sub (n : Int) : (2 ^ 32 : Int) ∣ (BitVec.ofInt 32 n).toInt - n := by
  rw [BitVec.toInt_ofInt]
  exact Int.dvd_bmod_sub_self

theorem toInt_ofInt_of_fits {n : Int} (hlo : -2 ^ 31 ≤ n) (hhi : n < 2 ^ 31) : (BitVec.ofInt 32 n).toInt = n := by
  rw [BitVec.toInt_ofInt]
  exact Int.bmod_eq_of_le (by omega) (by omega)

/-- Settles O19: each of the five meanings writes the exact result wrapped to 32 bits. -/
theorem overflowWraps : Obligations.OverflowWraps := by
  unfold Obligations.OverflowWraps
  intro s a b d i n h
  have hexec : exec i s = .next (s.writeReg d (BitVec.ofInt 32 n)) := by
    obtain ⟨rfl, rfl⟩ | ⟨rfl, rfl⟩ | ⟨rfl, rfl⟩ | ⟨rfl, rfl⟩ | ⟨rfl, rfl⟩ := h
    · exact exec_add_ofNat s a b d
    · exact exec_sub_ofNat s a b d
    · exact exec_mul_ofNat s a b d
    · exact exec_inc_ofNat s d
    · exact exec_dec_ofNat s d
  refine ⟨_, hexec, rfl, rfl, ?_, fun hlo hhi => ?_⟩
  · rw [State.readReg_writeReg_same]
    exact dvd_toInt_ofInt_sub n
  · rw [State.readReg_writeReg_same, toInt_ofInt_of_fits hlo hhi]

/-! ## MOD -/

theorem exec_mod_of_toInt_ne_zero (s : State) (a : Fin Config.nreg) {b : Fin Config.nreg} (d : Fin Config.nreg)
    (hb : (s.readReg b).toInt ≠ 0) :
    exec (.mod (BitVec.ofNat 8 a.val) (BitVec.ofNat 8 b.val) (BitVec.ofNat 8 d.val)) s =
      .next ((s.writeReg d (BitVec.ofInt 32 (Int.tdiv (s.readReg a).toInt (s.readReg b).toInt))).writeRem
        (BitVec.ofInt 32 ((s.readReg a).toInt -
          Int.tdiv (s.readReg a).toInt (s.readReg b).toInt * (s.readReg b).toInt))) := by
  rw [exec_mod_ofNat, s.divide_of_toInt_ne_zero a d hb]

/-- Settles O15: a divisor that is not 0 leaves the two writes of a division. -/
theorem modCompletes : Obligations.ModCompletes := by
  unfold Obligations.ModCompletes
  intro s a b d hb
  refine ⟨_, exec_mod_of_toInt_ne_zero s a d hb, ?_, rfl, fun r hr => ?_, rfl, rfl, rfl, rfl, rfl, fun _ => rfl⟩
  · rw [State.writeRem_readReg, State.readReg_writeReg_same]
  · rw [State.writeRem_readReg, s.readReg_writeReg_ne _ hr]

/-- The truncated quotient of a 32-bit value fits in 32 signed bits; -2^31 by -1 is the one exception (R87). -/
theorem tdiv_fits {n m : Int} (hlo : -2 ^ 31 ≤ n) (hhi : n < 2 ^ 31) (hne : ¬(n = -2 ^ 31 ∧ m = -1)) :
    -2 ^ 31 ≤ Int.tdiv n m ∧ Int.tdiv n m < 2 ^ 31 := by
  have hsize : (Int.tdiv n m).natAbs = n.natAbs / m.natAbs := Int.natAbs_tdiv n m
  obtain hm | rfl | rfl | hm : m = 0 ∨ m = 1 ∨ m = -1 ∨ 2 ≤ m.natAbs := by omega
  · rw [hm, Int.tdiv_zero]
    decide
  · rw [Int.tdiv_one]
    exact ⟨hlo, hhi⟩
  · rw [Int.tdiv_neg, Int.tdiv_one]
    omega
  · have hhalf : n.natAbs / m.natAbs ≤ n.natAbs / 2 := Nat.div_le_div_left hm (by decide)
    omega

theorem natAbs_tmod_lt (n : Int) {m : Int} (hm : m ≠ 0) : (Int.tmod n m).natAbs < m.natAbs := by
  rw [Int.natAbs_tmod]
  exact Nat.mod_lt _ (Int.natAbs_pos.mpr hm)

/-- A remainder that is positive goes with a positive dividend (R84). -/
theorem pos_of_tmod_pos {n m : Int} (h : 0 < Int.tmod n m) : 0 < n := by
  by_contra hn
  have hneg : 0 ≤ Int.tmod (-n) m := Int.tmod_nonneg m (by omega)
  rw [Int.neg_tmod] at hneg
  omega

/-- A remainder that is negative goes with a negative dividend (R84). -/
theorem neg_of_tmod_neg {n m : Int} (h : Int.tmod n m < 0) : n < 0 := by
  by_contra hn
  have hpos : 0 ≤ Int.tmod n m := Int.tmod_nonneg m (by omega)
  omega

/-- The remainder fits in 32 signed bits, since it is smaller in size than the divisor. -/
theorem toInt_ofInt_remainder {n m : Int} (hlo : -2 ^ 31 ≤ m) (hhi : m < 2 ^ 31) (hm : m ≠ 0) :
    (BitVec.ofInt 32 (n - Int.tdiv n m * m)).toInt = Int.tmod n m := by
  have hsize := natAbs_tmod_lt n hm
  have hrem : n - Int.tdiv n m * m = Int.tmod n m := trem_eq_tmod n m
  rw [hrem, toInt_ofInt_of_fits] <;> omega

/-- Settles O20: the quotient fits but for one pair, where it wraps to -2^31; the remainder always fits. -/
theorem divisionLaws : Obligations.DivisionLaws := by
  unfold Obligations.DivisionLaws
  intro s a b d hb
  have hrem := toInt_ofInt_remainder (n := (s.readReg a).toInt) (s.readReg b).le_toInt BitVec.toInt_lt hb
  refine ⟨_, exec_mod_of_toInt_ne_zero s a d hb, ?_⟩
  rw [State.writeRem_readReg, State.readReg_writeReg_same, State.writeRem_rem, hrem]
  refine ⟨fun ⟨hn, hm⟩ => ?_, fun hne => ?_, ?_, pos_of_tmod_pos, neg_of_tmod_neg⟩
  · rw [hn, hm]
    decide
  · obtain ⟨hlo, hhi⟩ := tdiv_fits (s.readReg a).le_toInt BitVec.toInt_lt hne
    rw [toInt_ofInt_of_fits hlo hhi, Int.tdiv_mul_add_tmod]
  · rw [Int.abs_eq_natAbs, Int.abs_eq_natAbs, Int.ofNat_lt]
    exact natAbs_tmod_lt _ hb

/-! ## Comparisons -/

/-- Settles O16: each of the six meanings is a write of the flag. -/
theorem comparisonsComplete : Obligations.ComparisonsComplete := by
  unfold Obligations.ComparisonsComplete
  intro s a b i p h
  have hexec : ∃ v, exec i s = .next (s.writeFlag v) ∧ (v = true ↔ p) := by
    obtain ⟨rfl, rfl⟩ | ⟨rfl, rfl⟩ | ⟨rfl, rfl⟩ | ⟨rfl, rfl⟩ | ⟨rfl, rfl⟩ | ⟨rfl, rfl⟩ := h
    · exact ⟨_, exec_eq_ofNat s a b, decide_eq_true_iff⟩
    · exact ⟨_, exec_neq_ofNat s a b, decide_eq_true_iff⟩
    · exact ⟨_, exec_gt_ofNat s a b, decide_eq_true_iff⟩
    · exact ⟨_, exec_gte_ofNat s a b, decide_eq_true_iff⟩
    · exact ⟨_, exec_lt_ofNat s a b, decide_eq_true_iff⟩
    · exact ⟨_, exec_lte_ofNat s a b, decide_eq_true_iff⟩
  obtain ⟨v, hv, hp⟩ := hexec
  exact ⟨_, hv, hp, fun _ => rfl, rfl, rfl, rfl, rfl, rfl, fun _ => rfl⟩

/-- The row of R97's table that the six relations of `m` and `n` make. -/
def comparisonRow (m n : Int) : List Bool :=
  [flagEq m n, flagNeq m n, flagGt m n, flagGte m n, flagLt m n, flagLte m n]

theorem comparisonRow_of_lt {m n : Int} (h : m < n) : comparisonRow m n = [false, true, false, false, true, true] := by
  simp [comparisonRow, flagEq, flagNeq, flagGt, flagGte, flagLt, flagLte]
  omega

theorem comparisonRow_self (m : Int) : comparisonRow m m = [true, false, false, true, false, true] := by
  simp [comparisonRow, flagEq, flagNeq, flagGt, flagGte, flagLt, flagLte]

theorem comparisonRow_of_gt {m n : Int} (h : m > n) : comparisonRow m n = [false, true, true, true, false, false] := by
  simp [comparisonRow, flagEq, flagNeq, flagGt, flagGte, flagLt, flagLte]
  omega

/-- Settles O21: the six meanings write the row of their relations, and each ordering fixes that row. -/
theorem comparisonTruthTable : Obligations.ComparisonTruthTable := by
  unfold Obligations.ComparisonTruthTable
  intro s a b row h
  have hrow : row = comparisonRow (s.readReg a).toInt (s.readReg b).toInt := by
    obtain ⟨hlt, rfl⟩ | ⟨heq, rfl⟩ | ⟨hgt, rfl⟩ := h
    · exact (comparisonRow_of_lt hlt).symm
    · rw [heq, comparisonRow_self]
    · exact (comparisonRow_of_gt hgt).symm
  simp only [hrow, comparisonRow, List.map_cons, List.map_nil, exec_eq_ofNat, exec_neq_ofNat, exec_gt_ofNat,
    exec_gte_ofNat, exec_lt_ofNat, exec_lte_ofNat]

/-! ## HLT, NOP and JMP -/

/-- Settles O17: HLT and NOP are the identity, JMP is a write of `pc`. -/
theorem controlCompletes : Obligations.ControlCompletes := by
  unfold Obligations.ControlCompletes
  exact fun s r => ⟨rfl, rfl, _, exec_jmp_ofNat s r, rfl, fun _ => rfl, rfl, rfl, rfl, rfl, rfl, fun _ => rfl⟩

end Sys2Proof.Machine

/-! # What a step leaves: next state, pc and registers (R12, R15, R16, R127, R153) -/

namespace Sys2Proof

/-! ## Lengths -/

/-- The lengths of R15's table, by mnemonic. -/
theorem Instr.length_eq_one {i : Instr} (h : i.opcode ∈ [Opcode.hlt, .nop]) : i.length = 1 := by
  simp only [List.mem_cons, List.not_mem_nil, or_false] at h
  obtain h | h := h <;> rw [Instr.length, h] <;> rfl

theorem Instr.length_eq_two {i : Instr} (h : i.opcode ∈ [Opcode.inc, .dec, .modr]) : i.length = 2 := by
  simp only [List.mem_cons, List.not_mem_nil, or_false] at h
  obtain h | h | h := h <;> rw [Instr.length, h] <;> rfl

theorem Instr.length_eq_three {i : Instr} (h : i.opcode ∈ [Opcode.eq, .neq, .gt, .gte, .lt, .lte]) :
    i.length = 3 := by
  simp only [List.mem_cons, List.not_mem_nil, or_false] at h
  obtain h | h | h | h | h | h := h <;> rw [Instr.length, h] <;> rfl

theorem Instr.length_eq_four {i : Instr} (h : i.opcode ∈ [Opcode.add, .sub, .mul, .mod, .load]) : i.length = 4 := by
  simp only [List.mem_cons, List.not_mem_nil, or_false] at h
  obtain h | h | h | h | h := h <;> rw [Instr.length, h] <;> rfl

namespace Machine

/-! ## A step answers, and performs what is decoded -/

/-- Settles O32: a fetch ends in a fault state or an instruction, and every meaning answers (`exists_step`). -/
theorem everyStepAnswersNextState : Obligations.EveryStepAnswersNextState := by
  unfold Obligations.EveryStepAnswersNextState
  exact exists_step

/-- Settles O33: fetching the instruction at `pc` and decoding the bytes there are the same (`step_of_decode`). -/
theorem stepRunsDecodedInstruction : Obligations.StepRunsDecodedInstruction := by
  unfold Obligations.StepRunsDecodedInstruction
  exact fun _ _ _ => step_of_decode

/-! ## The instruction at `pc` -/

/-- The instruction fetched has its opcode byte at `pc`. -/
theorem State.memRead_pc_of_fetchInstr {s u : State} {i : Instr} (h : s.fetchInstr = .got i u) :
    s.memRead s.pc = some (opcodeByte i.opcode) := by
  obtain ⟨-, e⟩ | ⟨_, -, -, e⟩ | ⟨_, _, _, -, -, -, -, -, e⟩ | ⟨b, row, ops, hb, hr, -, -, e⟩ := s.fetchInstr_cases <;>
    rw [e] at h <;> cases h
  rw [build_opcode, (opcodeByte_of_row hr).1, hb]

/-- The last byte of the instruction fetched can be read: the opcode byte or the last operand byte. -/
theorem State.memRead_last_of_fetchInstr {s u : State} {i : Instr} (h : s.fetchInstr = .got i u) :
    ∃ b, s.memRead (s.pc + BitVec.ofNat 32 i.operands.length) = some b := by
  cases hl : i.operands.length with
  | zero => exact ⟨_, by simpa using State.memRead_pc_of_fetchInstr h⟩
  | succ n => exact ⟨_, State.memRead_operand h (j := n) (by omega)⟩

/-- A few bytes past `pc`, where `pc` is inside the image, an address has not wrapped. -/
theorem State.toNat_pc_add {s : State} {k : Nat} (hpc : s.pc.toNat < s.len.val) (hk : k ≤ 4) :
    (s.pc + BitVec.ofNat 32 k).toNat = s.pc.toNat + k := by
  have hlen : s.len.val < 2147483648 := s.len.isLt
  rw [BitVec.toNat_add, BitVec.toNat_ofNat]
  omega

/-- An instruction fetched lies inside the image, and so `pc` past it has not wrapped (R16). -/
theorem State.pc_past_fetchInstr {s u : State} {i : Instr} (h : s.fetchInstr = .got i u) :
    s.pc.toNat < u.pc.toNat ∧ u.pc.toNat ≤ s.len.val := by
  obtain ⟨-, rfl⟩ := State.fetchInstr_got_iff.mp h
  have hpc := (State.memRead_eq_some.mp (State.memRead_pc_of_fetchInstr h)).1
  obtain ⟨b, hb⟩ := State.memRead_last_of_fetchInstr h
  have hlast := (State.memRead_eq_some.mp hb).1
  have harity : i.operands.length ≤ 3 := by
    rw [operands_length]
    exact arity_le_three _
  rw [State.toNat_pc_add hpc (by omega)] at hlast
  rw [State.writePc_pc, i.length_eq, State.toNat_pc_add hpc (by omega)]
  omega

/-! ## `pc` after a cycle -/

/-- Only a jump writes `pc` after the fetch (R15). -/
theorem Effect.pc_eq {s t : State} {i : Instr} (he : Effect s i t) (hi : i.opcode ≠ .jmp) : t.pc = s.pc := by
  cases he with
  | jump => exact absurd rfl hi
  | badIndex | zeroDivisor | nothing | threeRegs | oneReg | comparison | division => rfl

/-- A jump that does not fault has written the pattern of its register to `pc` (R103). -/
theorem Effect.pc_eq_of_jmp {s t : State} {b : Byte} (he : Effect s (.jmp b) t) (ht : t.faulted = false) :
    ∃ r, regIndex b = some r ∧ t.pc = s.readReg r := by
  cases he with
  | badIndex => cases ht
  | jump _ hr => exact ⟨_, hr, rfl⟩
  | nothing hi => simp at hi
  | threeRegs hi => simp at hi
  | oneReg hi => simp at hi
  | comparison hi => simp at hi

/-- Settles O34: `pc` stands past the instruction when its meaning begins, and only a jump moves it from there. -/
theorem pcAfterCompletedCycle : Obligations.PcAfterCompletedCycle := by
  unfold Obligations.PcAfterCompletedCycle
  intro s t hs h ht
  obtain ⟨hs', -⟩ | ⟨-, hf⟩ | ⟨-, i, u, hf, he⟩ := step_inversion h
  · simp [hs] at hs'
  · obtain ⟨v, c, rfl⟩ := State.eq_raise_of_fetchInstr_raised hf
    cases ht
  · obtain ⟨⟨rest, hd⟩, rfl⟩ := State.fetchInstr_got_iff.mp hf
    have hpc {os : List Opcode} {n : Nat} (hjmp : .jmp ∉ os) (hi : i.opcode ∈ os) (hn : i.length = n) :
        t.pc = s.pc + BitVec.ofNat 32 n := by
      rw [he.pc_eq (fun hj => hjmp (hj ▸ hi)), State.writePc_pc, hn]
    refine ⟨i, rest, hd, fun hi => hpc (by decide) hi (Instr.length_eq_one hi),
      fun hi => hpc (by decide) hi (Instr.length_eq_two hi), fun hi => hpc (by decide) hi (Instr.length_eq_three hi),
      fun hi => hpc (by decide) hi (Instr.length_eq_four hi), ?_⟩
    rintro b rfl
    obtain ⟨r, hr, e⟩ := he.pc_eq_of_jmp ht
    exact ⟨r, regIndex_eq_some.mp hr, e⟩

/-- A fetch that faults in a Running block has moved `pc` forward, at most to the end of the image (R16, R122). -/
theorem State.pc_past_fetchInstr_raised {s t : State} (hpc : s.pc.toNat < s.len.val) (h : s.fetchInstr = .raised t) :
    s.pc.toNat < t.pc.toNat ∧ t.pc.toNat ≤ s.len.val := by
  obtain ⟨hm, -⟩ | ⟨b, hb, -, e⟩ | ⟨b, row, k, hb, -, -, ho, hn, e⟩ | ⟨b, row, ops, -, -, -, -, e⟩ := s.fetchInstr_cases
  · exact absurd (State.memRead_eq_none.mp hm) (Nat.not_le_of_lt hpc)
  · rw [e] at h
    cases h
    have hsucc := State.toNat_succ_of_memRead hb
    simp only [State.raise_pc, State.writePc_pc]
    omega
  · rw [e] at h
    cases h
    have hlen := State.toNat_eq_len_of_first_missing (by simp [hb]) ho hn
    simp only [State.raise_pc, State.writePc_pc]
    omega
  · rw [e] at h
    cases h

/-- Settles O35: a fetch moves `pc` forward inside the image, and no meaning but JMP's moves it again. -/
theorem pcMovesForwardInsideImage : Obligations.PcMovesForwardInsideImage := by
  unfold Obligations.PcMovesForwardInsideImage
  intro s t hrun hjmp h
  obtain ⟨hs, hpc⟩ := s.status_eq_running_iff.mp hrun
  obtain ⟨hs', -⟩ | ⟨-, hf⟩ | ⟨-, i, u, hf, he⟩ := step_inversion h
  · simp [hs] at hs'
  · exact State.pc_past_fetchInstr_raised hpc hf
  · have hi : i.opcode ≠ .jmp := by
      intro hi
      rw [State.memRead_pc_of_fetchInstr hf, hi] at hjmp
      exact hjmp rfl
    rw [he.pc_eq hi]
    exact State.pc_past_fetchInstr hf

/-! ## The registers after a step -/

theorem eq_ofNat_of_regIndex {b : Byte} {r : Fin Config.nreg} (h : regIndex b = some r) :
    b = BitVec.ofNat 8 r.val := by
  rw [← regIndex_eq_some.mp h, BitVec.ofNat_toNat, BitVec.setWidth_eq]

/-- The destination byte of the instruction names `r`: the third operand byte or the first (R12). -/
def NamesDestination (i : Instr) (r : Fin Config.nreg) : Prop :=
  (i.opcode ∈ [Opcode.add, .sub, .mul, .mod] ∧ i.operands[2]? = some (BitVec.ofNat 8 r.val)) ∨
    (i.opcode ∈ [Opcode.inc, .dec, .load, .modr] ∧ i.operands[0]? = some (BitVec.ofNat 8 r.val))

theorem eq_of_readReg_writeReg_ne {s : State} {r q : Fin Config.nreg} {v : Word}
    (h : (s.writeReg q v).readReg r ≠ s.readReg r) : r = q := by
  by_contra hne
  exact h (s.readReg_writeReg_ne v hne)

/-- Of the eight endings of a meaning three write a register, the one the destination byte names. -/
theorem Effect.namesDestination {s t : State} {i : Instr} {r : Fin Config.nreg} (he : Effect s i t)
    (h : t.readReg r ≠ s.readReg r) : NamesDestination i r := by
  cases he with
  | badIndex | zeroDivisor | nothing | comparison | jump => exact absurd rfl h
  | threeRegs hi _ hr v =>
    obtain rfl := eq_of_readReg_writeReg_ne h
    obtain rfl | rfl | rfl := hi <;> exact .inl ⟨by simp [Instr.opcode], congrArg some (eq_ofNat_of_regIndex hr)⟩
  | division _ _ _ hr v w =>
    obtain rfl := eq_of_readReg_writeReg_ne h
    exact .inl ⟨by simp [Instr.opcode], congrArg some (eq_ofNat_of_regIndex hr)⟩
  | oneReg hi _ hr v =>
    obtain rfl := eq_of_readReg_writeReg_ne h
    obtain rfl | rfl | rfl | rfl := hi <;> exact .inr ⟨by simp [Instr.opcode], congrArg some (eq_ofNat_of_regIndex hr)⟩

/-- Settles O38: a fetch writes no register, a meaning at most the one its destination byte names. -/
theorem onlyTheDestinationRegisterChanges : Obligations.OnlyTheDestinationRegisterChanges := by
  unfold Obligations.OnlyTheDestinationRegisterChanges
  intro s t r h hne
  obtain ⟨-, rfl⟩ | ⟨-, hf⟩ | ⟨-, i, u, hf, he⟩ := step_inversion h
  · exact absurd rfl hne
  · obtain ⟨v, c, rfl⟩ := State.eq_raise_of_fetchInstr_raised hf
    exact absurd rfl hne
  · obtain ⟨⟨rest, hd⟩, rfl⟩ := State.fetchInstr_got_iff.mp hf
    exact ⟨i, rest, hd, he.namesDestination hne⟩

/-! ## What a faulting cycle leaves -/

/-- Where a fetch faults: at the opcode byte, past an unknown one, or at the first missing operand byte (R127). -/
theorem fetch_fault_cases {s t : State} (h : s.fetchInstr = .raised t) :
    (t.faultCause = 2 ∧ s.len.val ≤ s.pc.toNat ∧ t.pc = s.pc) ∨
    (t.faultCause = 1 ∧ (∃ b, s.memRead s.pc = some b ∧ rowOfByte b = none) ∧ t.pc = s.pc + 1) ∨
    (∃ b row n, s.memRead s.pc = some b ∧ rowOfByte b = some row ∧ n < row.format.arity ∧
      (∀ j, j < n → s.memRead (s.pc + 1 + BitVec.ofNat 32 j) ≠ none) ∧ s.memRead t.pc = none ∧
      t.faultCause = 2 ∧ t.pc = s.pc + 1 + BitVec.ofNat 32 n ∧ t.pc.toNat = s.len.val) := by
  obtain ⟨hm, e⟩ | ⟨b, hb, hr, e⟩ | ⟨b, row, k, hb, hr, hk, ho, hn, e⟩ | ⟨b, row, ops, -, -, -, -, e⟩ :=
    s.fetchInstr_cases <;> rw [e] at h <;> cases h
  · exact .inl ⟨rfl, State.memRead_eq_none.mp hm, rfl⟩
  · exact .inr (.inl ⟨rfl, ⟨b, hb, hr⟩, rfl⟩)
  · have hlen := State.toNat_eq_len_of_first_missing (by simp [hb]) ho hn
    refine .inr (.inr ⟨b, row, k, hb, hr, hk, ?_, hn, rfl, ?_, hlen⟩)
    · simpa only [add_one_add_ofNat] using ho
    · rw [add_one_add_ofNat]
      rfl

/-- Where a fetched instruction faults: past its operand bytes, with a bad index, or with a zero divisor at a MOD. -/
theorem effect_fault_cases {s t u : State} {i : Instr} (hs : s.faulted = false) (hf : s.fetchInstr = .got i u)
    (he : Effect u i t) (ht : t.faulted = true) :
    (∃ b row, s.memRead s.pc = some b ∧ rowOfByte b = some row ∧
      t.faultCause = 3 ∧ t.pc = s.pc + 1 + BitVec.ofNat 32 row.format.arity) ∨
    (s.memRead s.pc = some 0x04 ∧ t.faultCause = 4 ∧ t.pc = s.pc + 4) := by
  have hb := State.memRead_pc_of_fetchInstr hf
  obtain ⟨row, hr, -, hformat⟩ := rowOfByte_of_opcode i.opcode
  obtain ⟨-, rfl⟩ := State.fetchInstr_got_iff.mp hf
  obtain ⟨-, rfl⟩ | ⟨-, ⟨a, b, d, j, rfl, -, -⟩, rfl⟩ | ⟨-, -, e⟩ := he.checks
  · refine .inl ⟨_, row, hb, hr, rfl, ?_⟩
    rw [add_one_add_ofNat, hformat, ← operands_length, ← i.length_eq]
    rfl
  · exact .inr ⟨hb, rfl, rfl⟩
  · simp [hs, ht] at e

/-- Settles O26: a faulting cycle is a move of `pc` and a fault entry; the five cases are those of the fetch and of the
checks after it. -/
theorem faultingCycleLeaves : Obligations.FaultingCycleLeaves := by
  unfold Obligations.FaultingCycleLeaves
  intro s t hs h ht
  obtain ⟨v, c, e⟩ := eq_raise_of_step_faults hs h ht
  refine ⟨fun r => by rw [e]; rfl, by rw [e]; rfl, by rw [e]; rfl, by rw [e]; rfl, fun k => by rw [e]; rfl,
    step_of_faulted ht, fun _ => hostOp_of_faulted ht, ?_⟩
  obtain ⟨hs', -⟩ | ⟨-, hf⟩ | ⟨-, i, u, hf, he⟩ := step_inversion h
  · simp [hs] at hs'
  · obtain hopcode | hinvalid | hoperand := fetch_fault_cases hf
    exacts [.inl hopcode, .inr (.inl hinvalid), .inr (.inr (.inl hoperand))]
  · exact .inr (.inr (.inr (effect_fault_cases hs hf he ht)))

end Machine

end Sys2Proof

/-! # What reads and writes the flag and `rem` (R17, R18) -/

namespace Sys2Proof.Machine

/-! ## An update that most of a cycle does not see -/

/-- An update of the state outside `pc`, the registers, the fault registers and the image: what a cycle does with those is
the same before and after it. -/
structure Unseen (g : State → State) : Prop where
  pc : ∀ s, (g s).pc = s.pc
  faulted : ∀ s, (g s).faulted = s.faulted
  memRead : ∀ s k, (g s).memRead k = s.memRead k
  readReg : ∀ s r, (g s).readReg r = s.readReg r
  writePc : ∀ s v, (g s).writePc v = g (s.writePc v)
  writeReg : ∀ s r v, (g s).writeReg r v = g (s.writeReg r v)
  raise : ∀ s c, (g s).raise c = g (s.raise c)

theorem unseen_writeFlag (v : Bool) : Unseen (·.writeFlag v) where
  pc _ := rfl
  faulted _ := rfl
  memRead _ _ := rfl
  readReg _ _ := rfl
  writePc _ _ := rfl
  writeReg _ _ _ := rfl
  raise _ _ := rfl

theorem unseen_writeRem (v : Word) : Unseen (·.writeRem v) where
  pc _ := rfl
  faulted _ := rfl
  memRead _ _ := rfl
  readReg _ _ := rfl
  writePc _ _ := rfl
  writeReg _ _ _ := rfl
  raise _ _ := rfl

/-- `u` is `t`, or `t` updated: what is left of the update after a piece of a cycle that overwrites it or does not see
it. -/
def SameUpTo (g : State → State) (t u : State) : Prop := u = t ∨ u = g t

section Unseen

variable {g : State → State} (hg : Unseen g)
include hg

/-! ## Fetching -/

theorem Unseen.fetchInstr_raised {s t : State} (h : s.fetchInstr = .raised t) : (g s).fetchInstr = .raised (g t) := by
  obtain ⟨hm, e⟩ | ⟨b, hb, hr, e⟩ | ⟨b, row, k, hb, hr, hk, ho, hn, e⟩ | ⟨b, row, ops, -, -, -, -, e⟩ :=
    s.fetchInstr_cases <;> rw [e] at h <;> cases h
  · have hfetch : (g s).fetch = .raised (g (s.raise .imageOutOfBounds)) := by
      rw [State.fetch_of_out_of_range (by rwa [hg.memRead, hg.pc]), hg.raise]
    simp only [State.fetchInstr, hfetch]
  · rw [State.fetchInstr_of_no_row (by rwa [hg.memRead, hg.pc]) hr, hg.pc, hg.writePc, hg.raise]
  · rw [← hg.raise, ← hg.writePc, ← hg.pc]
    refine State.fetchInstr_of_missing (by rwa [hg.memRead, hg.pc]) hr hk ?_ ?_ <;>
      simpa only [hg.memRead, hg.pc]

theorem Unseen.fetchInstr_got {s u : State} {i : Instr} (h : s.fetchInstr = .got i u) :
    (g s).fetchInstr = .got i (g u) := by
  obtain ⟨-, e⟩ | ⟨_, -, -, e⟩ | ⟨_, _, _, -, -, -, -, -, e⟩ | ⟨b, row, ops, hb, hr, hl, ho, e⟩ := s.fetchInstr_cases <;>
    rw [e] at h <;> cases h
  rw [← hg.writePc, ← hg.pc]
  refine State.fetchInstr_of_reads (by rwa [hg.memRead, hg.pc]) hr hl ?_
  simpa only [hg.memRead, hg.pc]

/-! ## The operand forms and the shared effects -/

theorem Unseen.withReg_sameUpTo {s : State} {r : Byte} {k l : Fin Config.nreg → State} (h : ∀ i, SameUpTo g (k i) (l i)) :
    SameUpTo g (withReg s r k) (withReg (g s) r l) := by
  unfold withReg
  cases regIndex r with
  | some i => exact h i
  | none => exact .inr (hg.raise s _)

theorem Unseen.withRegs2_sameUpTo {s : State} {a b : Byte} {k l : Fin Config.nreg → Fin Config.nreg → State}
    (h : ∀ i j, SameUpTo g (k i j) (l i j)) : SameUpTo g (withRegs2 s a b k) (withRegs2 (g s) a b l) := by
  unfold withRegs2
  cases regIndex a <;> cases regIndex b
  case some.some i j => exact h i j
  all_goals exact .inr (hg.raise s _)

theorem Unseen.withRegs3_sameUpTo {s : State} {a b d : Byte}
    {k l : Fin Config.nreg → Fin Config.nreg → Fin Config.nreg → State}
    (h : ∀ i j m, SameUpTo g (k i j m) (l i j m)) : SameUpTo g (withRegs3 s a b d k) (withRegs3 (g s) a b d l) := by
  unfold withRegs3
  cases regIndex a <;> cases regIndex b <;> cases regIndex d
  case some.some.some i j m => exact h i j m
  all_goals exact .inr (hg.raise s _)

theorem Unseen.combine_sameUpTo (s : State) (f : Int → Int → Word) (a b d : Fin Config.nreg) :
    SameUpTo g (s.combine f a b d) ((g s).combine f a b d) :=
  .inr (by simp only [State.combine_eq, hg.readReg, hg.writeReg])

theorem Unseen.modify_sameUpTo (s : State) (f : Int → Word) (r : Fin Config.nreg) :
    SameUpTo g (s.modify f r) ((g s).modify f r) :=
  .inr (by simp only [State.modify_eq, hg.readReg, hg.writeReg])

theorem Unseen.divide_sameUpTo (hrem : ∀ s v, SameUpTo g (State.writeRem s v) ((g s).writeRem v)) (s : State)
    (a b d : Fin Config.nreg) : SameUpTo g (s.divide a b d) ((g s).divide a b d) := by
  by_cases hz : sval (s.readReg b) = 0
  · exact .inr (by simp only [State.divide, hg.readReg, if_pos hz, hg.raise])
  · simp only [State.divide, hg.readReg, if_neg hz, hg.writeReg]
    exact hrem _ _

/-! ## A cycle and a step -/

/-- A write of the flag or of `rem` may overwrite the update; that MODR reads `rem` is the one way to see it. -/
theorem Unseen.exec_sameUpTo {i : Instr} {s t : State}
    (hflag : ∀ s b, SameUpTo g (State.writeFlag s b) ((g s).writeFlag b))
    (hrem : ∀ s v, SameUpTo g (State.writeRem s v) ((g s).writeRem v))
    (hmodr : i.opcode = .modr → (g s).rem = s.rem) (h : exec i s = .next t) :
    ∃ u, exec i (g s) = .next u ∧ SameUpTo g t u := by
  cases i with
  | add a b d | sub a b d | mul a b d =>
    cases h
    exact ⟨_, rfl, hg.withRegs3_sameUpTo fun a b d => hg.combine_sameUpTo s _ a b d⟩
  | mod a b d =>
    cases h
    exact ⟨_, rfl, hg.withRegs3_sameUpTo (hg.divide_sameUpTo hrem s)⟩
  | inc r | dec r =>
    cases h
    exact ⟨_, rfl, hg.withReg_sameUpTo fun r => hg.modify_sameUpTo s _ r⟩
  | eq a b | neq a b | gt a b | gte a b | lt a b | lte a b =>
    cases h
    refine ⟨_, rfl, hg.withRegs2_sameUpTo fun a b => ?_⟩
    simpa only [State.compare_eq, hg.readReg] using hflag s _
  | hlt | nop =>
    cases h
    exact ⟨_, rfl, .inr rfl⟩
  | load r hi lo =>
    cases h
    exact ⟨_, rfl, hg.withReg_sameUpTo fun r => .inr (hg.writeReg s r _)⟩
  | jmp r =>
    cases h
    exact ⟨_, rfl, hg.withReg_sameUpTo fun r => .inr (by rw [hg.readReg, hg.writePc])⟩
  | modr r =>
    cases h
    exact ⟨_, rfl, hg.withReg_sameUpTo fun r => .inr (by rw [hmodr rfl, hg.writeReg])⟩

theorem Unseen.step_sameUpTo {s t : State}
    (hflag : ∀ s b, SameUpTo g (State.writeFlag s b) ((g s).writeFlag b))
    (hrem : ∀ s v, SameUpTo g (State.writeRem s v) ((g s).writeRem v))
    (hmodr : s.memRead s.pc = some 0x11 → ∀ u, (g u).rem = u.rem) (h : step s = .next t) :
    step (g s) = .next t ∨ step (g s) = .next (g t) := by
  obtain ⟨hs, rfl⟩ | ⟨hs, hf⟩ | ⟨hs, i, u, hf, -⟩ := step_inversion h
  · exact .inr (step_of_faulted (by rwa [hg.faulted]))
  · rw [step_of_not_faulted (by rwa [hg.faulted]), cycle_of_raised (hg.fetchInstr_raised hf)]
    exact .inr rfl
  · rw [step_of_not_faulted hs, cycle_of_got hf] at h
    rw [step_of_not_faulted (by rwa [hg.faulted]), cycle_of_got (hg.fetchInstr_got hf)]
    have hbyte : i.opcode = .modr → (g u).rem = u.rem := fun hi =>
      hmodr (by rw [State.memRead_pc_of_fetchInstr hf, hi]; rfl) u
    obtain ⟨v, hv, rfl | rfl⟩ := hg.exec_sameUpTo hflag hrem hbyte h
    · exact .inl hv
    · exact .inr hv

end Unseen

/-! ## The flag -/

/-- Of the eight endings of a meaning only a comparison writes the flag. -/
theorem Effect.opcode_of_flag_ne {s t : State} {i : Instr} (he : Effect s i t) (h : t.flag ≠ s.flag) :
    i.opcode ∈ [Opcode.eq, .neq, .gt, .gte, .lt, .lte] := by
  cases he with
  | comparison hi => obtain rfl | rfl | rfl | rfl | rfl | rfl := hi <;> simp [Instr.opcode]
  | badIndex | zeroDivisor | nothing | threeRegs | oneReg | jump | division => exact absurd rfl h

theorem opcodeByte_of_comparison {o : Opcode} (h : o ∈ [Opcode.eq, .neq, .gt, .gte, .lt, .lte]) :
    0x07 ≤ (opcodeByte o).toNat ∧ (opcodeByte o).toNat ≤ 0x0C := by
  revert o
  decide

theorem exists_comparison_byte_of_flag_ne {s t : State} (h : step s = .next t) (hne : t.flag ≠ s.flag) :
    ∃ b, s.memRead s.pc = some b ∧ 0x07 ≤ b.toNat ∧ b.toNat ≤ 0x0C := by
  obtain ⟨-, rfl⟩ | ⟨-, hf⟩ | ⟨-, i, u, hf, he⟩ := step_inversion h
  · exact absurd rfl hne
  · obtain ⟨v, c, rfl⟩ := State.eq_raise_of_fetchInstr_raised hf
    exact absurd rfl hne
  · have hb := State.memRead_pc_of_fetchInstr hf
    obtain ⟨-, rfl⟩ := State.fetchInstr_got_iff.mp hf
    exact ⟨_, hb, opcodeByte_of_comparison (he.opcode_of_flag_ne hne)⟩

/-- Settles O36: a comparison overwrites the flag, and nothing else sees it. -/
theorem flagIsWrittenByComparisonsAndReadByNone : Obligations.FlagIsWrittenByComparisonsAndReadByNone := by
  unfold Obligations.FlagIsWrittenByComparisonsAndReadByNone
  refine ⟨fun s t => exists_comparison_byte_of_flag_ne, fun s t v h => ?_⟩
  exact (unseen_writeFlag v).step_sameUpTo (fun _ _ => .inl rfl) (fun _ _ => .inr rfl) (fun _ _ => rfl) h

/-! ## `rem` -/

/-- Of the eight endings of a meaning only a completed division writes `rem`. -/
theorem Effect.division_of_rem_ne {s t : State} {i : Instr} (he : Effect s i t) (h : t.rem ≠ s.rem) :
    i.opcode = .mod ∧ t.faulted = s.faulted := by
  cases he with
  | division => exact ⟨rfl, rfl⟩
  | badIndex | zeroDivisor | nothing | threeRegs | oneReg | comparison | jump => exact absurd rfl h

theorem mod_byte_of_rem_ne {s t : State} (h : step s = .next t) (hne : t.rem ≠ s.rem) :
    s.memRead s.pc = some 0x04 ∧ t.faulted = false := by
  obtain ⟨-, rfl⟩ | ⟨-, hf⟩ | ⟨hs, i, u, hf, he⟩ := step_inversion h
  · exact absurd rfl hne
  · obtain ⟨v, c, rfl⟩ := State.eq_raise_of_fetchInstr_raised hf
    exact absurd rfl hne
  · have hb := State.memRead_pc_of_fetchInstr hf
    obtain ⟨-, rfl⟩ := State.fetchInstr_got_iff.mp hf
    obtain ⟨hi, hfault⟩ := he.division_of_rem_ne hne
    rw [hi] at hb
    exact ⟨hb, hfault.trans hs⟩

/-- Settles O37: a completed division overwrites `rem`, and nothing but MODR sees it. -/
theorem remIsWrittenByModAndReadByModr : Obligations.RemIsWrittenByModAndReadByModr := by
  unfold Obligations.RemIsWrittenByModAndReadByModr
  refine ⟨fun s t => mod_byte_of_rem_ne, fun s t v hb h => ?_⟩
  exact (unseen_writeRem v).step_sameUpTo (fun _ _ => .inr rfl) (fun _ _ => .inl rfl)
    (fun hmodr => absurd hmodr hb) h

end Sys2Proof.Machine

/-! # The read port, the entry point and the end of a run (R22, R33, R34, R151, R157, R160) -/

namespace Sys2Proof.Machine

/-! ## The read port and `Fetch()` -/

/-- Settles O41: the two sides of the read port's test of the length, which looks at the image alone. -/
theorem readPort : Obligations.ReadPort := by
  unfold Obligations.ReadPort
  exact ⟨fun _ _ => State.memRead_eq_none.mpr, fun _ _ hk => State.memRead_eq_some.mpr ⟨hk, rfl⟩,
    fun _ _ k himem hlen => State.SameImage.memRead_eq ⟨himem, hlen⟩ k⟩

theorem State.fetch_of_memRead {s : State} {b : Byte} (h : s.memRead s.pc = some b) :
    s.fetch = .got b (s.writePc (s.pc + 1)) := by
  simp only [State.fetch, h]

/-- Settles O42: the two ends of a fetch. -/
theorem fetchReadsThenAdvances : Obligations.FetchReadsThenAdvances := by
  unfold Obligations.FetchReadsThenAdvances
  exact fun s => ⟨fun b hb => ⟨State.fetch_of_memRead hb, State.toNat_succ_of_memRead hb⟩,
    State.fetch_of_out_of_range⟩

/-- Settles O40: after `Reset` nothing is faulted and `pc` is 0, so the length alone decides the status. -/
theorem statusAfterReset : Obligations.StatusAfterReset := by
  unfold Obligations.StatusAfterReset
  refine fun s => ⟨fun hlen => ⟨?_, rfl, ?_⟩, fun hlen => ⟨?_, rfl⟩⟩
  · exact s.hostReset.status_eq_running_iff.mpr ⟨rfl, hlen⟩
  · have hread : s.memRead 0 = some (Memory.read s.imem 0) := State.memRead_eq_some.mpr ⟨hlen, rfl⟩
    exact ⟨_, hread, State.fetch_of_memRead (s := s.hostReset) hread⟩
  · exact s.hostReset.status_eq_halted_iff.mpr ⟨rfl, Nat.le_of_eq hlen⟩

/-! ## The end of a run -/

theorem State.runFor_add (s : State) (m n : Nat) : s.runFor (m + n) = (s.runFor m).runFor n := by
  induction m generalizing s with
  | zero => rw [Nat.zero_add, State.runFor_zero]
  | succ m ih => rw [Nat.succ_add, State.runFor_succ, State.runFor_succ, ih]

/-- Once the block is not Running, more fuel changes nothing. -/
theorem State.runFor_eq_of_le {s : State} {m n : Nat} (hm : (s.runFor m).status ≠ .running) (h : m ≤ n) :
    s.runFor n = s.runFor m := by
  obtain ⟨k, rfl⟩ := Nat.exists_eq_add_of_le h
  rw [State.runFor_add, State.runFor_of_not_running hm]

theorem State.RunEnds.unique {s t u : State} (ht : s.RunEnds t) (hu : s.RunEnds u) : t = u := by
  obtain ⟨m, rfl, hm⟩ := ht
  obtain ⟨n, rfl, hn⟩ := hu
  obtain h | h := Nat.le_total m n
  · exact (State.runFor_eq_of_le hm h).symm
  · exact State.runFor_eq_of_le hn h

/-- Settles O45: two ends are reached by runs of which one continues the other; the first moment is the least fuel after
which the block is not Running. -/
theorem runEndIsUnique : Obligations.RunEndIsUnique := by
  unfold Obligations.RunEndIsUnique
  refine ⟨fun _ _ _ => State.RunEnds.unique, fun s t hend => ?_⟩
  have hex : ∃ n, (s.runFor n).status ≠ .running := by
    obtain ⟨n, rfl, hn⟩ := hend
    exact ⟨n, hn⟩
  refine ⟨Nat.find hex, State.RunEnds.unique ⟨_, rfl, Nat.find_spec hex⟩ hend, fun k hk => ?_⟩
  exact not_not.mp (Nat.find_min hex hk)

/-- Settles O47: a faulted state on the way would be the end of the run, and the end is Halted. -/
theorem normalEndMeansNoFaultOnTheWay : Obligations.NormalEndMeansNoFaultOnTheWay := by
  unfold Obligations.NormalEndMeansNoFaultOnTheWay
  rintro s t hend ⟨hhalted, -⟩ k
  by_contra hfault
  have hstatus : (s.runFor k).status = .faulted := State.status_of_faulted (by simpa using hfault)
  obtain rfl : t = s.runFor k := hend.unique ⟨k, rfl, by simp [hstatus]⟩
  simp [hhalted] at hstatus

/-! ## Steps and `Run` -/

/-- In the Running status a turn of `Run` is a step (R154, R155). -/
theorem step_eq_runTurn {s : State} (hs : s.status = .running) : step s = .next s.runTurn := by
  obtain ⟨t, ht⟩ := exists_step s
  have hc : cycle s = .next t := by rw [← step_of_not_faulted (s.status_eq_running_iff.mp hs).1, ht]
  rw [ht, State.runTurn_of_running hs hc]

theorem core_run_succ_of_step {s t : State} (h : step s = .next t) (n : Nat) :
    Host.Core.run core (n + 1) s = Host.Core.run core n t := by
  have hcore : core.step s = .next t := h
  simp only [Host.Core.run, hcore]

/-- Settles O46: induction over the cycles; the states on the way of the rest of the run are those of the run, one turn
later. -/
theorem stepsWhileRunningAreRun : Obligations.StepsWhileRunningAreRun := by
  unfold Obligations.StepsWhileRunningAreRun
  intro n
  induction n with
  | zero => exact fun s _ => rfl
  | succ n ih =>
    intro s hrun
    have hstep : step s = .next s.runTurn := step_eq_runTurn (hrun 0 (Nat.succ_pos n))
    rw [core_run_succ_of_step hstep, ih s.runTurn fun k hk => hrun (k + 1) (Nat.succ_lt_succ hk), State.runFor_succ]

end Sys2Proof.Machine
